-- ==== Sys2Proof/Word.lean ====
section
/-!
DEFINITION. The words of the machine (rules R7 and R8): a byte is 8 bits, a word is 64 bits, a register
number is one instruction byte. All three are bit vectors, because the spec adds, shifts and masks them and
numbers their bits from 0, the least significant.
-/

namespace Sys2Proof

/-- A byte: the addressable unit of memory and of an instruction (rule R7). -/
abbrev Byte := BitVec 8

/-- A word: every register value and every address (rules R7 and R8). -/
abbrev Word := BitVec 64

/-- A register number: the operand byte that names one of the 256 general registers; every value is legal
(rules R22 and R95). -/
abbrev RegNum := BitVec 8

end Sys2Proof
end

