-- ==== Sys2Proof/Machine/Bytes.lean ====
section
/-!
DEFINITION. Byte order (rules R64, R66, R70 and R96): a word is stored with its most significant byte at the lowest
address, in memory and in an instruction's literal alike.
-/

namespace Sys2Proof

/-- The word whose bytes are `b0` (bits 63:56) to `b7` (bits 7:0) (rules R64 and R96). -/
def beWord (b0 b1 b2 b3 b4 b5 b6 b7 : Byte) : Word :=
  b0 ++ b1 ++ b2 ++ b3 ++ b4 ++ b5 ++ b6 ++ b7

/-- Byte `i` of a word, counted from the most significant: `v[63-8i : 56-8i]` (rule R66). -/
def beByte (v : Word) (i : Nat) : Byte :=
  v.extractLsb' (56 - 8 * i) 8

/-- The eight bytes of a word, most significant first (rule R66). -/
def beBytes (v : Word) : List Byte :=
  [beByte v 0, beByte v 1, beByte v 2, beByte v 3, beByte v 4, beByte v 5, beByte v 6, beByte v 7]

end Sys2Proof
end

