-- ==== Sys2Proof/Config.lean ====
section
/-!
DEFINITION. What is fixed for one run (rules R5 and R41): the construction-time parameters, as plain data, and
the one value the spec lets a model leave free. The values this hardware takes (the reference configuration of
rule R6) are in Machine/Reference.lean.
-/

namespace Sys2Proof

/-- The opcode map `OPMAP` (rule R97): one opcode byte for each of the 41 operations other than HALT. That each
operation has exactly one byte holds by the shape of the record; the other constraints of R97 are
`OpMap.legal`. -/
structure OpMap where
  nop : Byte
  ret : Byte
  di : Byte
  ei : Byte
  mfpc : Byte
  mfsp : Byte
  mfip : Byte
  mfcr : Byte
  not : Byte
  push : Byte
  pop : Byte
  mtsp : Byte
  mtip : Byte
  mtcr : Byte
  int : Byte
  mov : Byte
  lb : Byte
  sb : Byte
  add : Byte
  addu : Byte
  sub : Byte
  subu : Byte
  mul : Byte
  mulu : Byte
  and : Byte
  or : Byte
  xor : Byte
  shl : Byte
  shr : Byte
  cmp : Byte
  cmpu : Byte
  bc : Byte
  bcl : Byte
  div : Byte
  divu : Byte
  bal : Byte
  lsm : Byte
  stm : Byte
  mskr : Byte
  msks : Byte
  li : Byte
  deriving DecidableEq, Repr

/-- The parameter `CMP_CR_UPDATE` (rules R5 and R185): how a compare writes the condition register. -/
inductive CmpCrUpdate where
  /-- `cr <- f`: the value of this hardware. -/
  | intended
  /-- `cr` unchanged. -/
  | literalNoop
  /-- `cr <- cr & f`. -/
  | literalAnd
  deriving DecidableEq, Repr

/-- The parameter `GPR_RESET` (rules R5 and R46): what the general registers hold after reset. -/
inductive GprReset where
  /-- Every register is 0: the value of this hardware. -/
  | zero
  /-- Every register holds an unknown value. -/
  | unknown
  deriving DecidableEq, Repr

/-- The construction-time parameters (rules R5 and R41), sampled once and constant for the run. -/
structure Config where
  /-- `MEM_SIZE`: bytes in the memory array; legal from 1 to 2^64 - 1. -/
  memSize : Word
  /-- `STACK_TOP`: the initial stack pointer; `none` takes the default `MEM_SIZE`. -/
  stackTop : Option Word
  /-- `STACK_WORDS`: the size in words of the reserved stack region. -/
  stackWords : Word
  /-- `IVT_BASE`: the initial interrupt-vector pointer; `none` takes the default of rule R49. -/
  ivtBase : Option Word
  /-- `OPMAP`. -/
  opmap : OpMap
  /-- `CMP_CR_UPDATE`. -/
  cmpCrUpdate : CmpCrUpdate
  /-- `GPR_RESET`. -/
  gprReset : GprReset
  deriving DecidableEq, Repr

/-- The unknown value general register `r` holds after reset under `GPR_RESET = unknown` (rule R46): a FREE VALUE,
nothing constrains it. The hardware of this spec takes `GPR_RESET = zero` and never reads it. See log entry 6. -/
opaque Config.unknownGpr : Nat → Word

end Sys2Proof
end

