-- ==== Sys2Proof/Syntax.lean ====
section
/-!
DEFINITION. The instruction set: one constructor of `Instr` for each row of spec/opcode_table.json, the five
operand-layout classes of rule R92, and the 41 operations that the opcode map assigns bytes to (rule R97).
HALT is not among these: its byte `0x00` is fixed and is tested before the class (rule R91).
-/

namespace Sys2Proof

/-- The operand-layout classes, named as rule R92 names them. -/
inductive OpClass where
  /-- Zero-operand: the opcode byte alone. -/
  | z
  /-- One-register: one register number. -/
  | r1
  /-- Two-register: two register numbers. -/
  | r2
  /-- Three-register: three register numbers. -/
  | r3
  /-- Immediate: one register number and an 8-byte literal. -/
  | imm
  deriving DecidableEq, Repr

/-- The 41 operations other than HALT (rule R97). -/
inductive Op where
  | nop | ret | di | ei
  | mfpc | mfsp | mfip | mfcr | not | push | pop | mtsp | mtip | mtcr | int
  | mov | lb | sb | add | addu | sub | subu | mul | mulu | and | or | xor | shl | shr | cmp | cmpu | bc | bcl
  | div | divu | bal | lsm | stm | mskr | msks
  | li
  deriving DecidableEq, Repr

/-- An instruction. The operands `a`, `b`, `c` are the register numbers A, B, C of rule R94, and `imm` is the
class I literal. -/
inductive Instr where
  /-- HALT (R120): stop the machine with no error. -/
  | halt
  /-- NOP (R121): no operation. -/
  | nop
  /-- RET (R122): return from a call or a vectored interrupt: pop the program counter. -/
  | ret
  /-- DI (R123): clear the interrupt-enable flag. -/
  | di
  /-- EI (R124): set the interrupt-enable flag. -/
  | ei
  /-- MFPC (R140): read the program counter. -/
  | mfpc (a : RegNum)
  /-- MFSP (R141): read the stack pointer. -/
  | mfsp (a : RegNum)
  /-- MFIP (R142): read the interrupt-vector pointer. -/
  | mfip (a : RegNum)
  /-- MFCR (R143): read the condition register. -/
  | mfcr (a : RegNum)
  /-- NOT (R144): bitwise complement in place. -/
  | not (a : RegNum)
  /-- PUSH (R145): push a register. -/
  | push (a : RegNum)
  /-- POP (R146): pop a register. -/
  | pop (a : RegNum)
  /-- MTSP (R147): write the stack pointer. -/
  | mtsp (a : RegNum)
  /-- MTIP (R148): write the interrupt-vector pointer. -/
  | mtip (a : RegNum)
  /-- MTCR (R149): write the condition register. -/
  | mtcr (a : RegNum)
  /-- INT (R150): software interrupt; the number is the register's low byte. -/
  | int (a : RegNum)
  /-- MOV (R171): register move. -/
  | mov (a b : RegNum)
  /-- LB (R172): load a byte from the address in `b`. -/
  | lb (a b : RegNum)
  /-- SB (R173): store the low byte of `b` at the address in `a`. -/
  | sb (a b : RegNum)
  /-- ADD (R174): signed add. -/
  | add (a b : RegNum)
  /-- ADDU (R175): unsigned add. -/
  | addu (a b : RegNum)
  /-- SUB (R176): signed subtract. -/
  | sub (a b : RegNum)
  /-- SUBU (R177): unsigned subtract. -/
  | subu (a b : RegNum)
  /-- MUL (R178): signed multiply. -/
  | mul (a b : RegNum)
  /-- MULU (R179): unsigned multiply. -/
  | mulu (a b : RegNum)
  /-- AND (R180): bitwise and. -/
  | and (a b : RegNum)
  /-- OR (R181): bitwise or. -/
  | or (a b : RegNum)
  /-- XOR (R182): bitwise exclusive or. -/
  | xor (a b : RegNum)
  /-- SHL (R183): logical shift left. -/
  | shl (a b : RegNum)
  /-- SHR (R184): logical shift right. -/
  | shr (a b : RegNum)
  /-- CMP (R186): signed compare. -/
  | cmp (a b : RegNum)
  /-- CMPU (R187): unsigned compare. -/
  | cmpu (a b : RegNum)
  /-- BC (R189): conditional branch: mask in `a`, target in `b`. -/
  | bc (a b : RegNum)
  /-- BCL (R190): conditional branch, link on the stack. -/
  | bcl (a b : RegNum)
  /-- DIV (R221): signed divide with remainder. -/
  | div (a b c : RegNum)
  /-- DIVU (R222): unsigned divide with remainder. -/
  | divu (a b c : RegNum)
  /-- BAL (R223): conditional branch, link in register `c`. -/
  | bal (a b c : RegNum)
  /-- LSM (R224): load one word into every register `a` to `b`. -/
  | lsm (a b c : RegNum)
  /-- STM (R225): store every register `a` to `b` to one word. -/
  | stm (a b c : RegNum)
  /-- MSKR (R226): masked register update. -/
  | mskr (a b c : RegNum)
  /-- MSKS (R227): masked store of a word. -/
  | msks (a b c : RegNum)
  /-- LI (R250): load a 64-bit literal. -/
  | li (a : RegNum) (imm : Word)
  deriving DecidableEq, Repr

/-- Every operation, in the order of rule R97. -/
def Op.all : List Op :=
  [.nop, .ret, .di, .ei] ++
  [.mfpc, .mfsp, .mfip, .mfcr, .not, .push, .pop, .mtsp, .mtip, .mtcr, .int] ++
  [.mov, .lb, .sb, .add, .addu, .sub, .subu, .mul, .mulu, .and, .or, .xor, .shl, .shr, .cmp, .cmpu, .bc, .bcl] ++
  [.div, .divu, .bal, .lsm, .stm, .mskr, .msks] ++
  [.li]

end Sys2Proof
end

