-- ==== Sys2Proof/Machine/Reference.lean ====
section
/-!
DEFINITION. The tables the decoder and the encoder read: the class of an opcode byte and the width of a class
(rule R92), the class of each operation (rule R97), the byte the opcode map gives an operation; and the reference
values of the parameters (rules R6 and R98) with the defaults of rule R5.
-/

namespace Sys2Proof

/-- The class of an opcode byte other than `0x00`, chosen by its high nibble (rule R92). -/
def classOf (op : Byte) : OpClass :=
  if op &&& 0xF0#8 = 0xF0#8 then .z
  else if op &&& 0xF0#8 = 0x80#8 then .r1
  else if op &&& 0xF0#8 = 0xC0#8 then .r3
  else if op &&& 0xF0#8 = 0xE0#8 then .imm
  else .r2

/-- The width in bytes of an instruction of a class (rule R92). -/
def OpClass.width : OpClass → Nat
  | .z => 1
  | .r1 => 2
  | .r2 => 3
  | .r3 => 4
  | .imm => 10

/-- The class of each operation (rule R97). -/
def Op.cls : Op → OpClass
  | .nop | .ret | .di | .ei => .z
  | .mfpc | .mfsp | .mfip | .mfcr | .not | .push | .pop | .mtsp | .mtip | .mtcr | .int => .r1
  | .mov | .lb | .sb | .add | .addu | .sub | .subu | .mul | .mulu | .and | .or | .xor | .shl | .shr | .cmp | .cmpu | .bc | .bcl => .r2
  | .div | .divu | .bal | .lsm | .stm | .mskr | .msks => .r3
  | .li => .imm

/-- The opcode byte the map assigns to an operation (rule R97). -/
def OpMap.byteOf (m : OpMap) : Op → Byte
  | .nop => m.nop
  | .ret => m.ret
  | .di => m.di
  | .ei => m.ei
  | .mfpc => m.mfpc
  | .mfsp => m.mfsp
  | .mfip => m.mfip
  | .mfcr => m.mfcr
  | .not => m.not
  | .push => m.push
  | .pop => m.pop
  | .mtsp => m.mtsp
  | .mtip => m.mtip
  | .mtcr => m.mtcr
  | .int => m.int
  | .mov => m.mov
  | .lb => m.lb
  | .sb => m.sb
  | .add => m.add
  | .addu => m.addu
  | .sub => m.sub
  | .subu => m.subu
  | .mul => m.mul
  | .mulu => m.mulu
  | .and => m.and
  | .or => m.or
  | .xor => m.xor
  | .shl => m.shl
  | .shr => m.shr
  | .cmp => m.cmp
  | .cmpu => m.cmpu
  | .bc => m.bc
  | .bcl => m.bcl
  | .div => m.div
  | .divu => m.divu
  | .bal => m.bal
  | .lsm => m.lsm
  | .stm => m.stm
  | .mskr => m.mskr
  | .msks => m.msks
  | .li => m.li

/-- The operation an opcode byte selects: "the full opcode byte (not just the nibble) then selects the specific
operation within its class" (rule R97), so only operations of the byte's own class are looked at. `none` where the
map assigns the byte to no instruction (rule R99). -/
def OpMap.lookup (m : OpMap) (op : Byte) : Option Op :=
  Op.all.find? fun k => k.cls = classOf op && m.byteOf k = op

/-- The reference assignment of opcode bytes (rule R98). -/
def OpMap.reference : OpMap where
  nop := 0xF0#8
  ret := 0xF1#8
  di := 0xF2#8
  ei := 0xF3#8
  mfpc := 0x80#8
  mfsp := 0x81#8
  mfip := 0x82#8
  mfcr := 0x83#8
  not := 0x84#8
  push := 0x85#8
  pop := 0x86#8
  mtsp := 0x87#8
  mtip := 0x88#8
  mtcr := 0x89#8
  int := 0x8A#8
  mov := 0x10#8
  lb := 0x11#8
  sb := 0x12#8
  add := 0x20#8
  addu := 0x21#8
  sub := 0x22#8
  subu := 0x23#8
  mul := 0x24#8
  mulu := 0x25#8
  and := 0x30#8
  or := 0x31#8
  xor := 0x32#8
  shl := 0x33#8
  shr := 0x34#8
  cmp := 0x40#8
  cmpu := 0x41#8
  bc := 0x50#8
  bcl := 0x51#8
  div := 0xC0#8
  divu := 0xC1#8
  bal := 0xC2#8
  lsm := 0xC3#8
  stm := 0xC4#8
  mskr := 0xC5#8
  msks := 0xC6#8
  li := 0xE0#8

/-- `STACK_TOP`, with its default `MEM_SIZE` (rule R5). -/
def Config.stackTopValue (c : Config) : Word :=
  c.stackTop.getD c.memSize

/-- `IVT_BASE`, with its default `STACK_TOP - 8*STACK_WORDS` modulo 2^64 (rules R5 and R49). -/
def Config.ivtBaseValue (c : Config) : Word :=
  c.ivtBase.getD (c.stackTopValue - 8#64 * c.stackWords)

/-- The reference configuration (rule R6). -/
def Config.reference : Config where
  memSize := 0x10000#64
  stackTop := some 0x10000#64
  stackWords := 512#64
  ivtBase := some 0xF000#64
  opmap := OpMap.reference
  cmpCrUpdate := .intended
  gprReset := .zero

end Sys2Proof
end

