-- ==== Sys2Proof/Machine/State.lean ====
section
/-!
DEFINITION. The architectural state, exactly the record of rule R20, and beside it the run's configuration (rule
R5); the reasons a step can stop; and the state after reset (rules R46 to R52).
-/

namespace Sys2Proof.Machine

/-- Memory (rule R60): the bytes that differ from what an unlisted address reads as, by rising address. The one
canonical form is `Memory.wf`. -/
abbrev Memory := List Host.Cell

/-- The kind of a memory access (rule R310). -/
inductive AccessKind where
  /-- An instruction byte is fetched (rule R70). -/
  | fetch
  /-- Data is read (rules R63 and R64). -/
  | read
  /-- Data is written (rules R65 and R66). -/
  | write
  deriving DecidableEq, Repr

/-- The width of a memory access: 1 byte or 8 (rule R71). -/
inductive Width where
  /-- One byte. -/
  | byte
  /-- One word, 8 bytes. -/
  | word
  deriving DecidableEq, Repr

/-- The fatal faults with the information each records (rule R310). -/
inductive FaultCause where
  /-- Code 1: the opcode byte is not `0x00` and not in the opcode map. Records the byte. -/
  | decodeError (op : Byte)
  /-- Code 2: interrupt 1 with a selector in `x[0]` other than 1. Records the selector. -/
  | unknownSystemCall (selector : Word)
  /-- Code 3: an access outside `[0, MEM_SIZE)`. Records the address, the width and the kind. -/
  | addressFault (addr : Word) (width : Width) (kind : AccessKind)
  /-- Code 4: a divisor of 0. -/
  | divideByZero
  /-- Code 5: the signed division of -2^63 by -1. -/
  | divideOverflow
  /-- Code 6: a block transfer whose first register is above its last. Records both register numbers. -/
  | blockRange (first last : RegNum)
  deriving DecidableEq, Repr

/-- A fault record (rule R314): what happened and the failing PC. Its code is `FaultCause.code`. -/
structure FaultRecord where
  /-- The fault and its information. -/
  cause : FaultCause
  /-- The address of the instruction that faulted, or the address that could not be fetched. -/
  pc : Word
  deriving DecidableEq, Repr

/-- The run status (rule R35). -/
inductive Status where
  /-- The machine executes. -/
  | running
  /-- Opcode `0x00` was fetched. Terminal. -/
  | halted
  /-- A fatal fault happened. Terminal. -/
  | faulted (r : FaultRecord)
  deriving DecidableEq, Repr

/-- The architectural state (rule R20) and the configuration it runs under. -/
structure State where
  /-- The parameters of rule R5, fixed at construction. The model's own field (log entry 1): no instruction writes
  it. -/
  cfg : Config
  /-- The general registers (rule R21). -/
  x : Vector Word 256
  /-- The program counter (rule R24). -/
  pc : Word
  /-- The stack pointer (rule R29). -/
  sp : Word
  /-- The interrupt-vector pointer (rule R30). -/
  ip : Word
  /-- The condition register (rule R31). -/
  cr : Word
  /-- The interrupt-enable flag (rule R34). -/
  ie : Bool
  /-- Memory (rule R60). -/
  mem : Memory
  /-- The bytes emitted so far, oldest first (rule R43). -/
  out : List Byte
  /-- The run status (rule R35). -/
  status : Status
  deriving DecidableEq, Repr

/-- Why `step` stops with no next state. Both are the spec's "no step is defined" (rules R35 and R45): the machine
has already ended. The spec's own fatal faults are not here: they are a `Status`. -/
inductive Fault where
  /-- Raised by `step` on a halted machine (rule R35). Safe: the spec defines no step there. -/
  | stepAfterHalt
  /-- Raised by `step` on a faulted machine, with its record (rules R35 and R312). Safe: the spec defines no step
  there. -/
  | stepAfterFault (r : FaultRecord)
  deriving DecidableEq, Repr

/-- Why something is turned away. No instruction answers with one: every instruction has a meaning. -/
inductive Refusal where
  /-- Raised by no arm of `exec`: every instruction is modelled. Safe. -/
  | notModelled (mnemonic : String)
  /-- Raised by `launch`: the configuration is not legal (rule R5). Safe: no run exists. -/
  | illegalConfig
  /-- Raised by `launch`: the image is longer than `MEM_SIZE` (rule R62). Safe: no run exists. -/
  | imageTooLong
  /-- Raised by `launch`: a setup write falls outside memory (rule R62). Safe: no run exists. -/
  | setupOutsideMemory
  deriving DecidableEq, Repr

/-- The general registers after reset (rule R46). -/
def resetRegisters : GprReset → Vector Word 256
  | .zero => Vector.replicate 256 0#64
  | .unknown => Vector.ofFn fun i => Config.unknownGpr i.val

/-- The state after reset under a configuration, with zero-filled memory (rules R46 to R52, and step 1 of R62): the
state before any image is loaded. -/
def State.construct (c : Config) : State where
  cfg := c
  x := resetRegisters c.gprReset
  pc := 0#64
  sp := c.stackTopValue
  ip := c.ivtBaseValue
  cr := 0#64
  ie := false
  mem := []
  out := []
  status := .running

/-- The machine right after reset in the reference configuration (rules R6 and R350), with nothing loaded. -/
def State.reset : State :=
  State.construct Config.reference

end Sys2Proof.Machine
end

