-- ==== Sys2Proof/Machine/Operands.lean ====
section
/-!
DEFINITION. The operand forms (rules R22, R95 and R96): a register named by an operand byte, read or written; the run
of registers of a block transfer; the low byte of a register; a byte zero-extended to a word. The literal of class I
needs no form: it is used as it is (rule R96).
-/

namespace Sys2Proof.Machine

/-- `x[r]`, read (rules R9 and R22). -/
def State.reg (s : State) (r : RegNum) : Word :=
  s.x[r.toNat]'r.isLt

/-- `x[r] <- v` (rules R9 and R22): no register is hardwired and none aliases another. -/
def State.setReg (s : State) (r : RegNum) (v : Word) : State :=
  { s with x := s.x.set r.toNat v r.isLt }

/-- `pc <- v`. -/
def State.setPc (s : State) (v : Word) : State := { s with pc := v }

/-- `sp <- v`; no value is checked (rule R29). -/
def State.setSp (s : State) (v : Word) : State := { s with sp := v }

/-- `ip <- v`; no value is checked (rule R30). -/
def State.setIp (s : State) (v : Word) : State := { s with ip := v }

/-- `cr <- v`, all 64 bits (rules R31 and R149). -/
def State.setCr (s : State) (v : Word) : State := { s with cr := v }

/-- `ie <- b` (rule R34). -/
def State.setIe (s : State) (b : Bool) : State := { s with ie := b }

/-- `mem <- m`. -/
def State.setMem (s : State) (m : Memory) : State := { s with mem := m }

/-- `status <- st` (rule R35). -/
def State.setStatus (s : State) (st : Status) : State := { s with status := st }

/-- The low byte of a word, `v[7:0]` (rules R65, R150 and R302). -/
def lowByte (v : Word) : Byte := v.setWidth 8

/-- `zext_64`: a byte as a word (rule R8). -/
def zextByte (b : Byte) : Word := b.setWidth 64

/-- The registers `a` to `b` in ascending order (rules R224 and R225); none where `a > b`. -/
def regRun (a b : RegNum) : List RegNum :=
  (List.range (b.toNat + 1 - a.toNat)).map fun k => BitVec.ofNat 8 (a.toNat + k)

/-- One word written to every register of a run, in order (rule R224). -/
def State.setRegs (s : State) (rs : List RegNum) (v : Word) : State :=
  rs.foldl (fun t r => t.setReg r v) s

end Sys2Proof.Machine
end

