-- ==== Sys2Proof/Machine/Ops.lean ====
section
/-!
DEFINITION. The named operations: plain memory and its canonical form; the bounds-checked accessors (rules R63 to
R70); the stack (rules R74 and R75); the output port (rule R43); taking a fatal fault (rules R311 to R314); the
interrupt controller (rules R301 to R305) and the return from an interrupt (rule R308); and the frame every
instruction's rule runs in (rule R101). An operation that may raise a fault answers `Except FaultCause`.
-/

namespace Sys2Proof.Machine

/-! ### Memory as data -/

/-- What a byte that is not listed reads as: memory is zero-filled at reset (rule R62, step 1). -/
def Memory.unlisted : Byte := 0#8

/-- The byte of memory at an address. -/
def Memory.read : Memory → Nat → Byte
  | [], _ => Memory.unlisted
  | c :: m, a => if c.1 = a then c.2 else Memory.read m a

/-- Memory with nothing listed at an address. -/
def Memory.erase (m : Memory) (a : Nat) : Memory :=
  m.filter fun c => c.1 ≠ a

/-- Memory with a byte listed at an address. -/
def Memory.insert : Memory → Nat → Byte → Memory
  | [], a, v => [(a, v)]
  | c :: m, a, v =>
    if a < c.1 then (a, v) :: c :: m
    else if a = c.1 then (a, v) :: m
    else c :: Memory.insert m a v

/-- Memory with a byte written at an address: the value an unlisted address reads as is not listed. -/
def Memory.write (m : Memory) (a : Nat) (v : Byte) : Memory :=
  if v = Memory.unlisted then m.erase a else m.insert a v

/-- The canonical form: addresses strictly rise, and no entry equals what an unlisted address reads as. -/
abbrev Memory.wf (m : Memory) : Prop :=
  m.Pairwise (fun c d => c.1 < d.1) ∧ ∀ c ∈ m, c.2 ≠ Memory.unlisted

/-- Bytes written at an address and the addresses after it, in order. -/
def Memory.writeBytes (m : Memory) (a : Nat) : List Byte → Memory
  | [] => m
  | b :: bs => Memory.writeBytes (m.write a b) (a + 1) bs

/-- The big-endian word at an address, any byte address (rules R64 and R69). -/
def Memory.readWord (m : Memory) (a : Nat) : Word :=
  beWord (m.read a) (m.read (a + 1)) (m.read (a + 2)) (m.read (a + 3))
    (m.read (a + 4)) (m.read (a + 5)) (m.read (a + 6)) (m.read (a + 7))

/-- A word written big-endian at an address, any byte address (rules R66 and R69). -/
def Memory.writeWord (m : Memory) (a : Nat) (v : Word) : Memory :=
  m.writeBytes a (beBytes v)

/-- Memory with every register of a run stored, in order, to the one word at an address: it does not advance (rule
R225). -/
def State.storeRun (s : State) (a : Nat) (rs : List RegNum) : Memory :=
  rs.foldl (fun m r => m.writeWord a (s.reg r)) s.mem

/-! ### The checked accessors -/

/-- The number of bytes of an access (rule R71). -/
def Width.bytes : Width → Nat
  | .byte => 1
  | .word => 8

/-- The bounds check, as integers and with no wrap: the whole access lies in `[0, MEM_SIZE)` (rules R63 to R67). -/
def State.fits (s : State) (a : Word) (w : Width) : Bool :=
  a.toNat + w.bytes ≤ s.cfg.memSize.toNat

/-- The check of rules R63 to R67 as an operation that raises `AddressFault`. -/
def State.check (s : State) (a : Word) (w : Width) (k : AccessKind) : Except FaultCause Unit :=
  if s.fits a w then .ok () else .error (.addressFault a w k)

/-- `Fetch(a)` (rule R70). -/
def State.fetchByte (s : State) (a : Word) : Except FaultCause Byte := do
  s.check a .byte .fetch
  return s.mem.read a.toNat

/-- `MemRead(a, 1)` (rule R63). -/
def State.loadByte (s : State) (a : Word) : Except FaultCause Byte := do
  s.check a .byte .read
  return s.mem.read a.toNat

/-- `MemRead(a, 8)` (rule R64). -/
def State.loadWord (s : State) (a : Word) : Except FaultCause Word := do
  s.check a .word .read
  return s.mem.readWord a.toNat

/-- `MemWrite(a, 1, v)` (rule R65). -/
def State.storeByte (s : State) (a : Word) (v : Byte) : Except FaultCause State := do
  s.check a .byte .write
  return s.setMem (s.mem.write a.toNat v)

/-- `MemWrite(a, 8, v)` (rule R66). -/
def State.storeWord (s : State) (a : Word) (v : Word) : Except FaultCause State := do
  s.check a .word .write
  return s.setMem (s.mem.writeWord a.toNat v)

/-! ### Stack and output -/

/-- `Push(v)`: the address `sp - 8` wraps, and `sp` changes only if the write succeeds (rules R68 and R74). -/
def State.push (s : State) (v : Word) : Except FaultCause State := do
  let t ← s.storeWord (s.sp - 8#64) v
  return t.setSp (s.sp - 8#64)

/-- `Pop()`: the value popped and the state after it (rules R68 and R75). -/
def State.pop (s : State) : Except FaultCause (Word × State) := do
  let v ← s.loadWord s.sp
  return (v, s.setSp (s.sp + 8#64))

/-- `emit(b)`: appends to the output port; it always succeeds (rule R43). -/
def State.emit (s : State) (b : Byte) : State :=
  { s with out := s.out ++ [b] }

/-! ### Fatal faults -/

/-- The code of a fault (rule R310). -/
def FaultCause.code : FaultCause → Nat
  | .decodeError _ => 1
  | .unknownSystemCall _ => 2
  | .addressFault _ _ _ => 3
  | .divideByZero => 4
  | .divideOverflow => 5
  | .blockRange _ _ => 6

/-- Taking a fatal fault, from the state before the instruction: the status becomes `Faulted(r)` with the failing
instruction's address, and nothing else changes (rules R311, R312 and R314). -/
def State.takeFault (s : State) (c : FaultCause) : State :=
  s.setStatus (.faulted ⟨c, s.pc⟩)

/-- The end of an instruction begun in state `s`: its state, or the fault it raised, taken in `s`, so that nothing
the instruction wrote survives (rules R9 and R311). -/
def settle (s : State) (r : Except FaultCause State) : Host.Outcome State Fault Refusal :=
  match r with
  | .ok t => .next t
  | .error c => .next (s.takeFault c)

/-- The frame of an instruction of class `k` at `s.pc`: the program counter advances by the class width, then the
instruction's own rule runs (rules R25 and R101). -/
def runRule (k : OpClass) (s : State) (rule : State → Except FaultCause State) : Host.Outcome State Fault Refusal :=
  settle s (rule (s.setPc (s.pc + BitVec.ofNat 64 k.width)))

/-! ### The interrupt controller -/

/-- `SystemCall()`: selector 1 emits the low byte of `x[1]`, any other is a fatal fault (rules R302 to R304). -/
def State.systemCall (s : State) : Except FaultCause State :=
  if s.reg 0#8 = 1#64 then .ok (s.emit (lowByte (s.reg 1#8)))
  else .error (.unknownSystemCall (s.reg 0#8))

/-- The address of entry `n` of the vector table, modulo 2^64 (rules R68 and R77). -/
def State.vectorAddr (s : State) (n : Byte) : Word :=
  s.ip + n.setWidth 64 * 8#64

/-- `Vector(n)`, entering an interrupt: push the program counter, then jump to the word in entry `n`, read after the
push (rules R305 and R306). -/
def State.enterInterrupt (s : State) (n : Byte) : Except FaultCause State := do
  let t ← s.push s.pc
  let h ← t.loadWord (t.vectorAddr n)
  return t.setPc h

/-- `RaiseInterrupt(n)` (rule R301). -/
def State.raiseInterrupt (s : State) (n : Byte) : Except FaultCause State :=
  if n = 1#8 then s.systemCall else s.enterInterrupt n

/-- Return from a call or from an interrupt: pop the saved program counter; nothing else is restored (rules R122 and
R308). -/
def State.returnFrom (s : State) : Except FaultCause State := do
  let (v, t) ← s.pop
  return t.setPc v

end Sys2Proof.Machine
end

