-- ==== Sys2Proof/Machine/Immediate.lean ====
section
/-!
DEFINITION. The immediate class (rule R250).
-/

namespace Sys2Proof.Machine

open Host (Outcome)

/-- LI (R250): the literal is used as it is. -/
def execLi (a : RegNum) (imm : Word) (s : State) : Outcome State Fault Refusal :=
  runRule .imm s fun t => .ok (t.setReg a imm)

end Sys2Proof.Machine
end

