-- ==== Sys2Proof/Machine/OneRegister.lean ====
section
/-!
DEFINITION. The one-register class (rules R140 to R150).
-/

namespace Sys2Proof.Machine

open Host (Outcome)

/-- MFPC (R140): the value read is `npc`, already advanced. -/
def execMfpc (a : RegNum) (s : State) : Outcome State Fault Refusal :=
  runRule .r1 s fun t => .ok (t.setReg a t.pc)

/-- MFSP (R141). -/
def execMfsp (a : RegNum) (s : State) : Outcome State Fault Refusal :=
  runRule .r1 s fun t => .ok (t.setReg a t.sp)

/-- MFIP (R142). -/
def execMfip (a : RegNum) (s : State) : Outcome State Fault Refusal :=
  runRule .r1 s fun t => .ok (t.setReg a t.ip)

/-- MFCR (R143): all 64 bits. -/
def execMfcr (a : RegNum) (s : State) : Outcome State Fault Refusal :=
  runRule .r1 s fun t => .ok (t.setReg a t.cr)

/-- NOT (R144). -/
def execNot (a : RegNum) (s : State) : Outcome State Fault Refusal :=
  runRule .r1 s fun t => .ok (t.setReg a (~~~t.reg a))

/-- PUSH (R145). -/
def execPush (a : RegNum) (s : State) : Outcome State Fault Refusal :=
  runRule .r1 s fun t => t.push (t.reg a)

/-- POP (R146). -/
def execPop (a : RegNum) (s : State) : Outcome State Fault Refusal :=
  runRule .r1 s fun t => do
    let (v, u) ← t.pop
    return u.setReg a v

/-- MTSP (R147): the value is not checked. -/
def execMtsp (a : RegNum) (s : State) : Outcome State Fault Refusal :=
  runRule .r1 s fun t => .ok (t.setSp (t.reg a))

/-- MTIP (R148): the value is not checked. -/
def execMtip (a : RegNum) (s : State) : Outcome State Fault Refusal :=
  runRule .r1 s fun t => .ok (t.setIp (t.reg a))

/-- MTCR (R149): all 64 bits. -/
def execMtcr (a : RegNum) (s : State) : Outcome State Fault Refusal :=
  runRule .r1 s fun t => .ok (t.setCr (t.reg a))

/-- INT (R150): the interrupt number is the low byte of `x[a]`; the flag `ie` does not gate it (R307). -/
def execInt (a : RegNum) (s : State) : Outcome State Fault Refusal :=
  runRule .r1 s fun t => t.raiseInterrupt (lowByte (t.reg a))

end Sys2Proof.Machine
end

