-- ==== Sys2Proof/Machine/Alu.lean ====
section
/-!
DEFINITION. What the arithmetic, logical, shift, divide and mask instructions compute (rules R174 to R184, R221, R222
and R226). Each operation reads its operands as the integers the rule names, computes exactly, and keeps the low 64
bits.
-/

namespace Sys2Proof.Machine

/-- `(s64(a) + s64(b)) mod 2^64` (rule R174). -/
def addSigned (a b : Word) : Word := BitVec.ofInt 64 (a.toInt + b.toInt)

/-- `(u64(a) + u64(b)) mod 2^64` (rule R175). -/
def addUnsigned (a b : Word) : Word := BitVec.ofNat 64 (a.toNat + b.toNat)

/-- `(s64(a) - s64(b)) mod 2^64` (rule R176). -/
def subSigned (a b : Word) : Word := BitVec.ofInt 64 (a.toInt - b.toInt)

/-- `(u64(a) - u64(b)) mod 2^64` (rule R177). -/
def subUnsigned (a b : Word) : Word := BitVec.ofInt 64 ((a.toNat : Int) - (b.toNat : Int))

/-- `(s64(a) * s64(b)) mod 2^64` (rule R178). -/
def mulSigned (a b : Word) : Word := BitVec.ofInt 64 (a.toInt * b.toInt)

/-- `(u64(a) * u64(b)) mod 2^64` (rule R179). -/
def mulUnsigned (a b : Word) : Word := BitVec.ofNat 64 (a.toNat * b.toNat)

/-- Logical shift left by the whole of `b`; 0 from 64 on (rule R183). -/
def shiftLeft (a b : Word) : Word :=
  if b.toNat ≥ 64 then 0#64 else a <<< b.toNat

/-- Logical shift right by the whole of `b`; 0 from 64 on (rule R184). -/
def shiftRight (a b : Word) : Word :=
  if b.toNat ≥ 64 then 0#64 else a >>> b.toNat

/-- The signed quotient, rounded toward zero, as a word (rule R221). -/
def quotSigned (n d : Word) : Word := BitVec.ofInt 64 (n.toInt.tdiv d.toInt)

/-- The signed remainder `n - q*d`, as a word (rule R221). -/
def remSigned (n d : Word) : Word :=
  BitVec.ofInt 64 (n.toInt - n.toInt.tdiv d.toInt * d.toInt)

/-- The unsigned quotient, rounded down (rule R222). -/
def quotUnsigned (n d : Word) : Word := BitVec.ofNat 64 (n.toNat / d.toNat)

/-- The unsigned remainder (rule R222). -/
def remUnsigned (n d : Word) : Word := BitVec.ofNat 64 (n.toNat % d.toNat)

/-- The one signed division with no word for its quotient: -2^63 by -1 (rule R221). -/
def divOverflows (n d : Word) : Bool := n.toInt = -2 ^ 63 && d.toInt = -1

/-- The merge `(old & ~m) | (v & m)` (rules R226 and R227). -/
def maskMerge (old m v : Word) : Word := (old &&& ~~~m) ||| (v &&& m)

end Sys2Proof.Machine
end

