-- ==== Sys2Proof/Machine/Flags.lean ====
section
/-!
DEFINITION. The condition register: its three flags, the one flag a compare computes, how a compare writes the
register, and the test a branch makes of it (rules R31, R185 and R188). No other flag exists (rule R33).
-/

namespace Sys2Proof.Machine

/-- `CR_LT`, bit 63: less than (rule R31). -/
def crLt : Word := 0x8000000000000000#64

/-- `CR_GT`, bit 62: greater than (rule R31). -/
def crGt : Word := 0x4000000000000000#64

/-- `CR_EQ`, bit 61: equal (rule R31). -/
def crEq : Word := 0x2000000000000000#64

/-- `CmpFlag` over the integers both operands were read as (rule R185). -/
def flagOf (p q : Int) : Word :=
  if p < q then crLt else if p > q then crGt else crEq

/-- `CmpFlag(a, b, signed = true)` (rule R185). -/
def cmpFlagSigned (a b : Word) : Word := flagOf a.toInt b.toInt

/-- `CmpFlag(a, b, signed = false)` (rule R185). -/
def cmpFlagUnsigned (a b : Word) : Word := flagOf a.toNat b.toNat

/-- `UpdateCR(f)` under a value of `CMP_CR_UPDATE`, from the old `cr` (rule R185). -/
def updatedCr (p : CmpCrUpdate) (old f : Word) : Word :=
  match p with
  | .intended => f
  | .literalNoop => old
  | .literalAnd => old &&& f

/-- `UpdateCR(f)` on a state (rule R185). -/
def State.updateCr (s : State) (f : Word) : State :=
  s.setCr (updatedCr s.cfg.cmpCrUpdate s.cr f)

/-- The branch test `Taken(m)`: every bit set in the mask is set in `cr` (rule R188). -/
def taken (cr m : Word) : Bool := cr &&& m = m

end Sys2Proof.Machine
end

