-- ==== Sys2Proof/Machine/ThreeRegister.lean ====
section
/-!
DEFINITION. The three-register class (rules R220 to R227).
-/

namespace Sys2Proof.Machine

open Host (Outcome)

/-- DIV (R221): the zero check comes before the overflow check; the quotient is written before the remainder. -/
def execDiv (a b c : RegNum) (s : State) : Outcome State Fault Refusal :=
  runRule .r3 s fun t =>
    if t.reg b = 0#64 then .error .divideByZero
    else if divOverflows (t.reg a) (t.reg b) then .error .divideOverflow
    else .ok ((t.setReg a (quotSigned (t.reg a) (t.reg b))).setReg c (remSigned (t.reg a) (t.reg b)))

/-- DIVU (R222): the quotient is written before the remainder. -/
def execDivu (a b c : RegNum) (s : State) : Outcome State Fault Refusal :=
  runRule .r3 s fun t =>
    if t.reg b = 0#64 then .error .divideByZero
    else .ok ((t.setReg a (quotUnsigned (t.reg a) (t.reg b))).setReg c (remUnsigned (t.reg a) (t.reg b)))

/-- BAL (R223): when taken, `npc` goes to `x[c]` and the jump is to the old `x[b]`; when not, nothing changes. -/
def execBal (a b c : RegNum) (s : State) : Outcome State Fault Refusal :=
  runRule .r3 s fun t =>
    .ok (if taken t.cr (t.reg a) then (t.setReg c t.pc).setPc (t.reg b) else t)

/-- LSM (R224): the word at the address in `x[c]`, latched and checked first, goes to every register of the run. The
address does not advance, so the word is read once. -/
def execLsm (a b c : RegNum) (s : State) : Outcome State Fault Refusal :=
  runRule .r3 s fun t => do
    if a > b then .error (.blockRange a b)
    let v ← t.loadWord (t.reg c)
    return t.setRegs (regRun a b) v

/-- STM (R225): every register of the run, in ascending order, is stored at the one address in `x[c]`, checked first. -/
def execStm (a b c : RegNum) (s : State) : Outcome State Fault Refusal :=
  runRule .r3 s fun t => do
    if a > b then .error (.blockRange a b)
    t.check (t.reg c) .word .write
    return t.setMem (t.storeRun (t.reg c).toNat (regRun a b))

/-- MSKR (R226). -/
def execMskr (a b c : RegNum) (s : State) : Outcome State Fault Refusal :=
  runRule .r3 s fun t => .ok (t.setReg a (maskMerge (t.reg a) (t.reg b) (t.reg c)))

/-- MSKS (R227): the word at the address in `x[c]` is read, merged and written back. -/
def execMsks (a b c : RegNum) (s : State) : Outcome State Fault Refusal :=
  runRule .r3 s fun t => do
    let old ← t.loadWord (t.reg c)
    t.storeWord (t.reg c) (maskMerge old (t.reg b) (t.reg a))

end Sys2Proof.Machine
end

