-- ==== Sys2Proof/Machine/TwoRegister.lean ====
section
/-!
DEFINITION. The two-register class (rules R170 to R190).
-/

namespace Sys2Proof.Machine

open Host (Outcome)

/-- MOV (R171). -/
def execMov (a b : RegNum) (s : State) : Outcome State Fault Refusal :=
  runRule .r2 s fun t => .ok (t.setReg a (t.reg b))

/-- LB (R172): the byte at the address in `x[b]`, zero-extended. -/
def execLb (a b : RegNum) (s : State) : Outcome State Fault Refusal :=
  runRule .r2 s fun t => do
    let v ← t.loadByte (t.reg b)
    return t.setReg a (zextByte v)

/-- SB (R173): the low byte of `x[b]` at the address in `x[a]`. -/
def execSb (a b : RegNum) (s : State) : Outcome State Fault Refusal :=
  runRule .r2 s fun t => t.storeByte (t.reg a) (lowByte (t.reg b))

/-- ADD (R174): signed overflow wraps. -/
def execAdd (a b : RegNum) (s : State) : Outcome State Fault Refusal :=
  runRule .r2 s fun t => .ok (t.setReg a (addSigned (t.reg a) (t.reg b)))

/-- ADDU (R175). -/
def execAddu (a b : RegNum) (s : State) : Outcome State Fault Refusal :=
  runRule .r2 s fun t => .ok (t.setReg a (addUnsigned (t.reg a) (t.reg b)))

/-- SUB (R176). -/
def execSub (a b : RegNum) (s : State) : Outcome State Fault Refusal :=
  runRule .r2 s fun t => .ok (t.setReg a (subSigned (t.reg a) (t.reg b)))

/-- SUBU (R177). -/
def execSubu (a b : RegNum) (s : State) : Outcome State Fault Refusal :=
  runRule .r2 s fun t => .ok (t.setReg a (subUnsigned (t.reg a) (t.reg b)))

/-- MUL (R178): the low 64 bits. -/
def execMul (a b : RegNum) (s : State) : Outcome State Fault Refusal :=
  runRule .r2 s fun t => .ok (t.setReg a (mulSigned (t.reg a) (t.reg b)))

/-- MULU (R179): the low 64 bits. -/
def execMulu (a b : RegNum) (s : State) : Outcome State Fault Refusal :=
  runRule .r2 s fun t => .ok (t.setReg a (mulUnsigned (t.reg a) (t.reg b)))

/-- AND (R180). -/
def execAnd (a b : RegNum) (s : State) : Outcome State Fault Refusal :=
  runRule .r2 s fun t => .ok (t.setReg a (t.reg a &&& t.reg b))

/-- OR (R181). -/
def execOr (a b : RegNum) (s : State) : Outcome State Fault Refusal :=
  runRule .r2 s fun t => .ok (t.setReg a (t.reg a ||| t.reg b))

/-- XOR (R182). -/
def execXor (a b : RegNum) (s : State) : Outcome State Fault Refusal :=
  runRule .r2 s fun t => .ok (t.setReg a (t.reg a ^^^ t.reg b))

/-- SHL (R183). -/
def execShl (a b : RegNum) (s : State) : Outcome State Fault Refusal :=
  runRule .r2 s fun t => .ok (t.setReg a (shiftLeft (t.reg a) (t.reg b)))

/-- SHR (R184). -/
def execShr (a b : RegNum) (s : State) : Outcome State Fault Refusal :=
  runRule .r2 s fun t => .ok (t.setReg a (shiftRight (t.reg a) (t.reg b)))

/-- CMP (R186): writes `cr` and no general register. -/
def execCmp (a b : RegNum) (s : State) : Outcome State Fault Refusal :=
  runRule .r2 s fun t => .ok (t.updateCr (cmpFlagSigned (t.reg a) (t.reg b)))

/-- CMPU (R187): writes `cr` and no general register. -/
def execCmpu (a b : RegNum) (s : State) : Outcome State Fault Refusal :=
  runRule .r2 s fun t => .ok (t.updateCr (cmpFlagUnsigned (t.reg a) (t.reg b)))

/-- BC (R189): mask in `x[a]`, absolute target in `x[b]`, not checked. -/
def execBc (a b : RegNum) (s : State) : Outcome State Fault Refusal :=
  runRule .r2 s fun t => .ok (if taken t.cr (t.reg a) then t.setPc (t.reg b) else t)

/-- BCL (R190): when taken, `npc` is pushed before the jump; when not, nothing is. -/
def execBcl (a b : RegNum) (s : State) : Outcome State Fault Refusal :=
  runRule .r2 s fun t => do
    if taken t.cr (t.reg a) then
      let u ← t.push t.pc
      return u.setPc (t.reg b)
    else
      return t

end Sys2Proof.Machine
end

