-- ==== Sys2Proof/Machine/ZeroOperand.lean ====
section
/-!
DEFINITION. HALT and the zero-operand class (rules R120 to R124).
-/

namespace Sys2Proof.Machine

open Host (Outcome)

/-- HALT (R120): the machine stops with no error; the program counter stays at the instruction and nothing else
changes. -/
def execHalt (s : State) : Outcome State Fault Refusal :=
  .next (s.setStatus .halted)

/-- NOP (R121): only the program counter advances. -/
def execNop (s : State) : Outcome State Fault Refusal :=
  runRule .z s fun t => .ok t

/-- RET (R122): pop the program counter; the target is not checked. -/
def execRet (s : State) : Outcome State Fault Refusal :=
  runRule .z s fun t => t.returnFrom

/-- DI (R123): clear the interrupt-enable flag. -/
def execDi (s : State) : Outcome State Fault Refusal :=
  runRule .z s fun t => .ok (t.setIe false)

/-- EI (R124): set the interrupt-enable flag. -/
def execEi (s : State) : Outcome State Fault Refusal :=
  runRule .z s fun t => .ok (t.setIe true)

end Sys2Proof.Machine
end

