-- ==== Sys2Proof/Machine/Dispatch.lean ====
section
/-!
DEFINITION. The dispatch: one arm per instruction, each one call of the instruction's meaning. `exec i s` runs `i` as
the instruction at `s.pc`: the meaning itself moves the program counter past it (rule R101).
-/

namespace Sys2Proof.Machine

/-- The meaning of an instruction found at `s.pc`. -/
def exec (i : Instr) (s : State) : Host.Outcome State Fault Refusal :=
  match i with
  | .halt => Sys2Proof.Machine.execHalt s
  | .nop => Sys2Proof.Machine.execNop s
  | .ret => Sys2Proof.Machine.execRet s
  | .di => Sys2Proof.Machine.execDi s
  | .ei => Sys2Proof.Machine.execEi s
  | .mfpc a => Sys2Proof.Machine.execMfpc a s
  | .mfsp a => Sys2Proof.Machine.execMfsp a s
  | .mfip a => Sys2Proof.Machine.execMfip a s
  | .mfcr a => Sys2Proof.Machine.execMfcr a s
  | .not a => Sys2Proof.Machine.execNot a s
  | .push a => Sys2Proof.Machine.execPush a s
  | .pop a => Sys2Proof.Machine.execPop a s
  | .mtsp a => Sys2Proof.Machine.execMtsp a s
  | .mtip a => Sys2Proof.Machine.execMtip a s
  | .mtcr a => Sys2Proof.Machine.execMtcr a s
  | .int a => Sys2Proof.Machine.execInt a s
  | .mov a b => Sys2Proof.Machine.execMov a b s
  | .lb a b => Sys2Proof.Machine.execLb a b s
  | .sb a b => Sys2Proof.Machine.execSb a b s
  | .add a b => Sys2Proof.Machine.execAdd a b s
  | .addu a b => Sys2Proof.Machine.execAddu a b s
  | .sub a b => Sys2Proof.Machine.execSub a b s
  | .subu a b => Sys2Proof.Machine.execSubu a b s
  | .mul a b => Sys2Proof.Machine.execMul a b s
  | .mulu a b => Sys2Proof.Machine.execMulu a b s
  | .and a b => Sys2Proof.Machine.execAnd a b s
  | .or a b => Sys2Proof.Machine.execOr a b s
  | .xor a b => Sys2Proof.Machine.execXor a b s
  | .shl a b => Sys2Proof.Machine.execShl a b s
  | .shr a b => Sys2Proof.Machine.execShr a b s
  | .cmp a b => Sys2Proof.Machine.execCmp a b s
  | .cmpu a b => Sys2Proof.Machine.execCmpu a b s
  | .bc a b => Sys2Proof.Machine.execBc a b s
  | .bcl a b => Sys2Proof.Machine.execBcl a b s
  | .div a b c => Sys2Proof.Machine.execDiv a b c s
  | .divu a b c => Sys2Proof.Machine.execDivu a b c s
  | .bal a b c => Sys2Proof.Machine.execBal a b c s
  | .lsm a b c => Sys2Proof.Machine.execLsm a b c s
  | .stm a b c => Sys2Proof.Machine.execStm a b c s
  | .mskr a b c => Sys2Proof.Machine.execMskr a b c s
  | .msks a b c => Sys2Proof.Machine.execMsks a b c s
  | .li a imm => Sys2Proof.Machine.execLi a imm s

end Sys2Proof.Machine
end

