-- ==== Sys2Proof/WellFormed.lean ====
section
/-!
DEFINITION. What a legal opcode map, a legal configuration and a well-formed instruction are. Every operand value
is legal in its field (rules R95 and R100), so an instruction is well formed under an opcode map exactly when the
byte the map gives its operation obeys the constraints of rule R97.
-/

namespace Sys2Proof

/-- R97, constraint 1: the byte of an operation has the high nibble of the operation's class. -/
def OpMap.nibbleOk (m : OpMap) (k : Op) : Bool :=
  classOf (m.byteOf k) = k.cls

/-- R97, constraint 2: the byte is not `0x00`, which is HALT. -/
def OpMap.nonzeroOk (m : OpMap) (k : Op) : Bool :=
  m.byteOf k ≠ 0#8

/-- R97, constraint 3: no other operation has the same byte. -/
def OpMap.unsharedOk (m : OpMap) (k : Op) : Bool :=
  Op.all.all fun j => j = k || m.byteOf j ≠ m.byteOf k

/-- The map's byte for `k` obeys the constraints of rule R97 (the fourth, one byte for each operation, holds by the
shape of `OpMap`). -/
def OpMap.okFor (m : OpMap) (k : Op) : Bool :=
  m.nibbleOk k && m.nonzeroOk k && m.unsharedOk k

/-- A legal opcode map (rule R97). -/
def OpMap.legal (m : OpMap) : Bool :=
  Op.all.all m.okFor

/-- A legal configuration (rule R5): `MEM_SIZE` is at least 1 (a word is at most 2^64 - 1) and the opcode map is
legal. Every other parameter is legal at every value. -/
def Config.legal (c : Config) : Bool :=
  c.memSize ≠ 0#64 && c.opmap.legal

/-- The operation of an instruction; `none` for HALT, whose byte is not in the map (rule R97). -/
def Instr.op? : Instr → Option Op
  | .halt => none
  | .nop => some .nop
  | .ret => some .ret
  | .di => some .di
  | .ei => some .ei
  | .mfpc _ => some .mfpc
  | .mfsp _ => some .mfsp
  | .mfip _ => some .mfip
  | .mfcr _ => some .mfcr
  | .not _ => some .not
  | .push _ => some .push
  | .pop _ => some .pop
  | .mtsp _ => some .mtsp
  | .mtip _ => some .mtip
  | .mtcr _ => some .mtcr
  | .int _ => some .int
  | .mov _ _ => some .mov
  | .lb _ _ => some .lb
  | .sb _ _ => some .sb
  | .add _ _ => some .add
  | .addu _ _ => some .addu
  | .sub _ _ => some .sub
  | .subu _ _ => some .subu
  | .mul _ _ => some .mul
  | .mulu _ _ => some .mulu
  | .and _ _ => some .and
  | .or _ _ => some .or
  | .xor _ _ => some .xor
  | .shl _ _ => some .shl
  | .shr _ _ => some .shr
  | .cmp _ _ => some .cmp
  | .cmpu _ _ => some .cmpu
  | .bc _ _ => some .bc
  | .bcl _ _ => some .bcl
  | .div _ _ _ => some .div
  | .divu _ _ _ => some .divu
  | .bal _ _ _ => some .bal
  | .lsm _ _ _ => some .lsm
  | .stm _ _ _ => some .stm
  | .mskr _ _ _ => some .mskr
  | .msks _ _ _ => some .msks
  | .li _ _ => some .li

/-- An instruction is well formed under a map when its operation's byte is (rules R95, R97 and R100). HALT always is:
its byte is fixed (rule R91). -/
def Instr.wellFormed (m : OpMap) (i : Instr) : Bool :=
  match i.op? with
  | none => true
  | some k => m.okFor k

end Sys2Proof
end

