-- ==== Sys2Proof/Decode.lean ====
section
/-!
DEFINITION. The decoder, total on any list of bytes and rejecting by name (rules R90 to R102), and after it the
encoder, written from the same field layouts (rule R94). A list of bytes stands for the memory from an address up,
lowest address first.
-/

namespace Sys2Proof

/-- Why a list of bytes is no instruction. -/
inductive DecodeReject where
  /-- There is no opcode byte. -/
  | noByte
  /-- The opcode byte is not `0x00` and the map assigns it to no instruction (rule R99). -/
  | illegalOpcode (op : Byte)
  /-- The operand byte at this offset from the opcode byte is missing (rule R101). -/
  | operandMissing (offset : Nat)
  deriving DecidableEq, Repr

/-- What decoding answers: an instruction and the bytes after it, or a rejection. -/
abbrev Decoded := Except DecodeReject (Instr × List Byte)

/-- The operand layout Z (rule R94): no operand byte. -/
def fieldsZ (i : Instr) (bytes : List Byte) : Decoded :=
  .ok (i, bytes)

/-- The operand layout R1 (rule R94): A at offset 1. -/
def fieldsR1 (mk : RegNum → Instr) : List Byte → Decoded
  | a :: rest => .ok (mk a, rest)
  | bytes => .error (.operandMissing (1 + bytes.length))

/-- The operand layout R2 (rule R94): A at offset 1, B at offset 2. -/
def fieldsR2 (mk : RegNum → RegNum → Instr) : List Byte → Decoded
  | a :: b :: rest => .ok (mk a b, rest)
  | bytes => .error (.operandMissing (1 + bytes.length))

/-- The operand layout R3 (rule R94): A, B and C at offsets 1, 2 and 3. -/
def fieldsR3 (mk : RegNum → RegNum → RegNum → Instr) : List Byte → Decoded
  | a :: b :: c :: rest => .ok (mk a b c, rest)
  | bytes => .error (.operandMissing (1 + bytes.length))

/-- The operand layout I (rules R94 and R96): A at offset 1, the big-endian literal at offsets 2 to 9. -/
def fieldsI (mk : RegNum → Word → Instr) : List Byte → Decoded
  | a :: b0 :: b1 :: b2 :: b3 :: b4 :: b5 :: b6 :: b7 :: rest => .ok (mk a (beWord b0 b1 b2 b3 b4 b5 b6 b7), rest)
  | bytes => .error (.operandMissing (1 + bytes.length))

/-- The instruction of an operation, its operands read from the bytes after the opcode byte (rules R94 and R101). -/
def decodeFields (k : Op) (bytes : List Byte) : Decoded :=
  match k with
  | .nop => fieldsZ .nop bytes
  | .ret => fieldsZ .ret bytes
  | .di => fieldsZ .di bytes
  | .ei => fieldsZ .ei bytes
  | .mfpc => fieldsR1 .mfpc bytes
  | .mfsp => fieldsR1 .mfsp bytes
  | .mfip => fieldsR1 .mfip bytes
  | .mfcr => fieldsR1 .mfcr bytes
  | .not => fieldsR1 .not bytes
  | .push => fieldsR1 .push bytes
  | .pop => fieldsR1 .pop bytes
  | .mtsp => fieldsR1 .mtsp bytes
  | .mtip => fieldsR1 .mtip bytes
  | .mtcr => fieldsR1 .mtcr bytes
  | .int => fieldsR1 .int bytes
  | .mov => fieldsR2 .mov bytes
  | .lb => fieldsR2 .lb bytes
  | .sb => fieldsR2 .sb bytes
  | .add => fieldsR2 .add bytes
  | .addu => fieldsR2 .addu bytes
  | .sub => fieldsR2 .sub bytes
  | .subu => fieldsR2 .subu bytes
  | .mul => fieldsR2 .mul bytes
  | .mulu => fieldsR2 .mulu bytes
  | .and => fieldsR2 .and bytes
  | .or => fieldsR2 .or bytes
  | .xor => fieldsR2 .xor bytes
  | .shl => fieldsR2 .shl bytes
  | .shr => fieldsR2 .shr bytes
  | .cmp => fieldsR2 .cmp bytes
  | .cmpu => fieldsR2 .cmpu bytes
  | .bc => fieldsR2 .bc bytes
  | .bcl => fieldsR2 .bcl bytes
  | .div => fieldsR3 .div bytes
  | .divu => fieldsR3 .divu bytes
  | .bal => fieldsR3 .bal bytes
  | .lsm => fieldsR3 .lsm bytes
  | .stm => fieldsR3 .stm bytes
  | .mskr => fieldsR3 .mskr bytes
  | .msks => fieldsR3 .msks bytes
  | .li => fieldsI .li bytes

/-- The decoder (rules R91 to R102): HALT first, then the operation the opcode byte selects, then its operands. The
opcode map is consulted before any operand byte is asked for (rule R101). -/
def decode (m : OpMap) : List Byte → Decoded
  | [] => .error .noByte
  | op :: bytes =>
    if op = 0x00#8 then .ok (.halt, bytes)
    else
      match m.lookup op with
      | none => .error (.illegalOpcode op)
      | some k => decodeFields k bytes

/-- The encoder: the bytes of an instruction, lowest address first (rules R94, R96 and R97). -/
def encode (m : OpMap) : Instr → List Byte
  | .halt => [0x00#8]
  | .nop => [m.byteOf .nop]
  | .ret => [m.byteOf .ret]
  | .di => [m.byteOf .di]
  | .ei => [m.byteOf .ei]
  | .mfpc a => [m.byteOf .mfpc, a]
  | .mfsp a => [m.byteOf .mfsp, a]
  | .mfip a => [m.byteOf .mfip, a]
  | .mfcr a => [m.byteOf .mfcr, a]
  | .not a => [m.byteOf .not, a]
  | .push a => [m.byteOf .push, a]
  | .pop a => [m.byteOf .pop, a]
  | .mtsp a => [m.byteOf .mtsp, a]
  | .mtip a => [m.byteOf .mtip, a]
  | .mtcr a => [m.byteOf .mtcr, a]
  | .int a => [m.byteOf .int, a]
  | .mov a b => [m.byteOf .mov, a, b]
  | .lb a b => [m.byteOf .lb, a, b]
  | .sb a b => [m.byteOf .sb, a, b]
  | .add a b => [m.byteOf .add, a, b]
  | .addu a b => [m.byteOf .addu, a, b]
  | .sub a b => [m.byteOf .sub, a, b]
  | .subu a b => [m.byteOf .subu, a, b]
  | .mul a b => [m.byteOf .mul, a, b]
  | .mulu a b => [m.byteOf .mulu, a, b]
  | .and a b => [m.byteOf .and, a, b]
  | .or a b => [m.byteOf .or, a, b]
  | .xor a b => [m.byteOf .xor, a, b]
  | .shl a b => [m.byteOf .shl, a, b]
  | .shr a b => [m.byteOf .shr, a, b]
  | .cmp a b => [m.byteOf .cmp, a, b]
  | .cmpu a b => [m.byteOf .cmpu, a, b]
  | .bc a b => [m.byteOf .bc, a, b]
  | .bcl a b => [m.byteOf .bcl, a, b]
  | .div a b c => [m.byteOf .div, a, b, c]
  | .divu a b c => [m.byteOf .divu, a, b, c]
  | .bal a b c => [m.byteOf .bal, a, b, c]
  | .lsm a b c => [m.byteOf .lsm, a, b, c]
  | .stm a b c => [m.byteOf .stm, a, b, c]
  | .mskr a b c => [m.byteOf .mskr, a, b, c]
  | .msks a b c => [m.byteOf .msks, a, b, c]
  | .li a imm => m.byteOf .li :: a :: beBytes imm

/-- The longest instruction has 10 bytes (rule R92). -/
def maxInstrBytes : Nat := 10

/-- The bytes of an instruction word as spec/opcode_table.json numbers its bits: byte `k` is bits `8k+7 .. 8k`, and
every bit from `nbits` up is 0, to the length of the longest instruction. -/
def tableBytes (nbits w : Nat) : List Byte :=
  (List.range maxInstrBytes).map fun k => BitVec.ofNat 8 ((w % 2 ^ nbits) / 2 ^ (8 * k))

/-- The instruction the decoder reads, under the reference opcode map, from an instruction whose bits are `w`. -/
def decodeTableWord (nbits w : Nat) : Option Instr :=
  match decode OpMap.reference (tableBytes nbits w) with
  | .ok (i, _) => some i
  | .error _ => none

end Sys2Proof
end

