-- ==== Sys2Proof/Machine/Fetch.lean ====
section
/-!
DEFINITION. Fetching and decoding the instruction at the program counter (rules R70, R101 and R313).
-/

namespace Sys2Proof.Machine

/-- The instruction bytes from an address up, at most `n`, ending before the first address that cannot be fetched;
the offsets wrap modulo 2^64 (rules R68 and R70). -/
def State.fetchBytes (s : State) (a : Word) : Nat → List Byte
  | 0 => []
  | n + 1 =>
    match s.fetchByte a with
    | .ok b => b :: s.fetchBytes (a + 1#64) n
    | .error _ => []

/-- The bytes the decoder may look at: those of the longest instruction. A byte it does not ask for plays no part. -/
def State.fetchWindow (s : State) : List Byte :=
  s.fetchBytes s.pc maxInstrBytes

/-- The fault of a decoder's rejection at address `ipc` (rules R101 and R313): the opcode byte or the operand byte at
an offset could not be fetched, or the opcode is illegal. -/
def rejectCause (ipc : Word) : DecodeReject → FaultCause
  | .noByte => .addressFault ipc .byte .fetch
  | .illegalOpcode op => .decodeError op
  | .operandMissing k => .addressFault (ipc + BitVec.ofNat 64 k) .byte .fetch

/-- Fetch and decode the instruction at the program counter (rule R101). -/
def State.fetchDecode (s : State) : Except FaultCause Instr :=
  match decode s.cfg.opmap s.fetchWindow with
  | .ok (i, _) => .ok i
  | .error e => .error (rejectCause s.pc e)

end Sys2Proof.Machine
end

