-- ==== Sys2Proof/Machine/Step.lean ====
section
/-!
DEFINITION. One step of the machine (rules R45 and R101), and the placing of an instruction where the next step
fetches.
-/

namespace Sys2Proof.Machine

/-- One step: while the machine runs, exactly one instruction is fetched, decoded and executed to completion; a fault
of the fetch or the decode is taken as any fault is; a machine that has ended has no step (rules R45, R101, R311). -/
def step (s : State) : Host.Outcome State Fault Refusal :=
  match s.status with
  | .halted => .fault .stepAfterHalt
  | .faulted r => .fault (.stepAfterFault r)
  | .running =>
    match s.fetchDecode with
    | .ok i => exec i s
    | .error c => .next (s.takeFault c)

/-- The instruction whose bits are `w`, numbered as spec/opcode_table.json numbers them, placed in memory at the
program counter, as far as memory reaches. It stands for the load of rule R42 (log entry 9). -/
def State.withFetchWord (s : State) (nbits w : Nat) : State :=
  s.setMem (s.mem.writeBytes s.pc.toNat
    ((tableBytes nbits w).take (s.cfg.memSize.toNat - s.pc.toNat)))

end Sys2Proof.Machine
end

