-- ==== Sys2Proof/Machine/Boundary.lean ====
section
/-!
DEFINITION. The block's boundary (rules R41 to R44, R62, R350): the load interface that builds the state of a run
from a configuration, an image and the host's setup writes, or refuses the launch; and the read-only view of a
machine that has stopped.
-/

namespace Sys2Proof.Machine

/-- A host setup write: bytes to place from an address up (rule R42). -/
abbrev SetupWrite := Nat × List Byte

/-- The setup write stays inside memory (rule R62). -/
def setupFits (c : Config) (w : SetupWrite) : Bool :=
  w.1 + w.2.length ≤ c.memSize.toNat

/-- Memory at reset: zero-filled, then the image from address 0, then the setup writes in order (rule R62). -/
def launchMemory (img : List Byte) (setup : List SetupWrite) : Memory :=
  setup.foldl (fun m w => m.writeBytes w.1 w.2) (Memory.writeBytes [] 0 img)

/-- The launch of a run (rules R42, R62 and R350): the state before the first step, or a refusal, and then no run
exists. -/
def launch (c : Config) (img : List Byte) (setup : List SetupWrite) : Host.Outcome State Fault Refusal :=
  if !c.legal then .refused .illegalConfig
  else if img.length > c.memSize.toNat then .refused .imageTooLong
  else if !setup.all (setupFits c) then .refused .setupOutsideMemory
  else .next ((State.construct c).setMem (launchMemory img setup))

/-- The inspection port: the whole state, read-only, once the machine has stopped (rule R44). -/
def State.inspect (s : State) : Option State :=
  if s.status = .running then none else some s

end Sys2Proof.Machine
end

