-- ==== Sys2Proof/Safety.lean ====
section
/-!
DEFINITION. What claims about runs are made of: how a run ends (rule R359), what a program must set up before an
instruction works (rule R352), the invariant every step keeps, and what an instruction leaves unchanged.
-/

namespace Sys2Proof.Machine

/-! ### The end of a run -/

/-- How a run under fuel ends (rule R359). Running out of fuel is "no end observed", never an end. -/
inductive RunEnd where
  /-- The machine halted, in this state. -/
  | halted (s : State)
  /-- The machine took a fatal fault, in this state. -/
  | faulted (r : FaultRecord) (s : State)
  /-- No end within the fuel. -/
  | noEnd (s : State)
  /-- The step was refused (no instruction of this machine is). -/
  | refused (r : Refusal)
  deriving Repr

/-- A run of at most `k` steps (rule R359). -/
def runToEnd (k : Nat) (s : State) : RunEnd :=
  match s.status with
  | .halted => .halted s
  | .faulted r => .faulted r s
  | .running =>
    match k with
    | 0 => .noEnd s
    | k + 1 =>
      match step s with
      | .next t => runToEnd k t
      | .fault _ => .noEnd s
      | .refused r => .refused r

/-- The machine has ended with no error (rules R320 and R359). -/
def State.hasHalted (s : State) : Prop := s.status = .halted

/-- The machine has ended in a fatal fault (rules R312 and R359). -/
def State.hasFaulted (s : State) : Prop := ∃ r, s.status = .faulted r

/-! ### Boot requirements -/

/-- A push fits: the word just below `sp` lies in memory (rule R352, item 2). -/
def State.canPush (s : State) : Prop := s.fits (s.sp - 8#64) .word = true

/-- A pop fits: the word at `sp` lies in memory (rules R75 and R352, item 2). -/
def State.canPop (s : State) : Prop := s.fits s.sp .word = true

/-- Entry `n` of the vector table lies in memory (rule R352, item 3). -/
def State.vectorFits (s : State) (n : Byte) : Prop := s.fits (s.vectorAddr n) .word = true

/-- The system call of rule R303 is requested (rule R352, item 4). -/
def State.callsEmit (s : State) : Prop := s.reg 0#8 = 1#64

/-! ### The invariant -/

/-- What every step keeps: memory has its canonical form and lists only addresses inside memory, and a fault record
names the program counter the machine stopped at (rules R26, R60 and R314). -/
structure State.Inv (s : State) : Prop where
  /-- The canonical form. -/
  memWf : s.mem.wf
  /-- No byte outside `[0, MEM_SIZE)` is listed. -/
  memInside : ∀ c ∈ s.mem, c.1 < s.cfg.memSize.toNat
  /-- The failing PC of the record is the PC. -/
  faultPc : ∀ r, s.status = .faulted r → r.pc = s.pc

/-! ### What is unchanged -/

/-- Every byte of memory reads as before. -/
def sameMemory (s t : State) : Prop := ∀ a, t.mem.read a = s.mem.read a

/-- Every byte of memory outside the `n` bytes from address `a` up reads as before. -/
def sameMemoryOutside (s t : State) (a n : Nat) : Prop :=
  ∀ p, p < a ∨ a + n ≤ p → t.mem.read p = s.mem.read p

/-- Every general register holds what it held. -/
def sameRegs (s t : State) : Prop := ∀ r, t.reg r = s.reg r

/-- Every general register but `d` holds what it held. -/
def sameRegsBut (s t : State) (d : RegNum) : Prop := ∀ r, r ≠ d → t.reg r = s.reg r

/-- The configuration, the run status and the output are unchanged. -/
def sameRun (s t : State) : Prop := t.cfg = s.cfg ∧ t.status = s.status ∧ t.out = s.out

/-- The special registers other than the program counter, and the interrupt-enable flag, are unchanged. -/
def sameSpecials (s t : State) : Prop := t.sp = s.sp ∧ t.ip = s.ip ∧ t.cr = s.cr ∧ t.ie = s.ie

/-- `t` is `s` with the program counter past an instruction of `n` bytes and `v` in general register `d`; nothing else
changed. -/
def writesReg (s t : State) (n : Nat) (d : RegNum) (v : Word) : Prop :=
  t.reg d = v ∧ t.pc = s.pc + BitVec.ofNat 64 n ∧
    sameRegsBut s t d ∧ sameSpecials s t ∧ sameRun s t ∧ sameMemory s t

/-- `t` is `s` with `v` in the program counter; nothing else changed. -/
def onlyMovesPc (s t : State) (v : Word) : Prop :=
  t.pc = v ∧ sameRegs s t ∧ sameSpecials s t ∧ sameRun s t ∧ sameMemory s t

/-- `t` is `s` with the word `v` pushed (rule R74): `sp` is 8 lower, the word there is `v`, every byte outside it reads
as before; apart from the program counter nothing else changed. -/
def pushed (s t : State) (v : Word) : Prop :=
  t.sp = s.sp - 8#64 ∧ t.mem.readWord (s.sp - 8#64).toNat = v ∧ sameMemoryOutside s t (s.sp - 8#64).toNat 8 ∧
    sameRegs s t ∧ t.ip = s.ip ∧ t.cr = s.cr ∧ t.ie = s.ie ∧ sameRun s t

/-- The instruction is encoded as its operation's byte followed by these operand bytes, under every opcode map, and the
reference assignment gives the operation this byte (rules R94, R97 and R98). -/
def encodesAs (i : Instr) (k : Op) (ref : Byte) (operandBytes : List Byte) : Prop :=
  (∀ m, encode m i = m.byteOf k :: operandBytes) ∧ OpMap.reference.byteOf k = ref

/-- The general registers an instruction may write (the table of rule R23). -/
def writesGpr : Instr → RegNum → Prop
  | .halt, _ => False
  | .nop, _ => False
  | .ret, _ => False
  | .di, _ => False
  | .ei, _ => False
  | .mfpc a, r => r = a
  | .mfsp a, r => r = a
  | .mfip a, r => r = a
  | .mfcr a, r => r = a
  | .not a, r => r = a
  | .push _, _ => False
  | .pop a, r => r = a
  | .mtsp _, _ => False
  | .mtip _, _ => False
  | .mtcr _, _ => False
  | .int _, _ => False
  | .mov a _, r => r = a
  | .lb a _, r => r = a
  | .sb _ _, _ => False
  | .add a _, r => r = a
  | .addu a _, r => r = a
  | .sub a _, r => r = a
  | .subu a _, r => r = a
  | .mul a _, r => r = a
  | .mulu a _, r => r = a
  | .and a _, r => r = a
  | .or a _, r => r = a
  | .xor a _, r => r = a
  | .shl a _, r => r = a
  | .shr a _, r => r = a
  | .cmp _ _, _ => False
  | .cmpu _ _, _ => False
  | .bc _ _, _ => False
  | .bcl _ _, _ => False
  | .div a _ c, r => r = a ∨ r = c
  | .divu a _ c, r => r = a ∨ r = c
  | .bal _ _ c, r => r = c
  | .lsm a b _, r => a ≤ r ∧ r ≤ b
  | .stm _ _ _, _ => False
  | .mskr a _ _, r => r = a
  | .msks _ _ _, _ => False
  | .li a _, r => r = a

/-- Where an instruction stores: the first address and the number of bytes; `none` for an instruction, or a form, that
stores nothing (rule R71). -/
def storeSpan : Instr → State → Option (Nat × Nat)
  | .halt, _ => none
  | .nop, _ => none
  | .ret, _ => none
  | .di, _ => none
  | .ei, _ => none
  | .mfpc _, _ => none
  | .mfsp _, _ => none
  | .mfip _, _ => none
  | .mfcr _, _ => none
  | .not _, _ => none
  | .push _, s => some ((s.sp - 8#64).toNat, 8)
  | .pop _, _ => none
  | .mtsp _, _ => none
  | .mtip _, _ => none
  | .mtcr _, _ => none
  | .int a, s => if lowByte (s.reg a) = 1#8 then none else some ((s.sp - 8#64).toNat, 8)
  | .mov _ _, _ => none
  | .lb _ _, _ => none
  | .sb a _, s => some ((s.reg a).toNat, 1)
  | .add _ _, _ => none
  | .addu _ _, _ => none
  | .sub _ _, _ => none
  | .subu _ _, _ => none
  | .mul _ _, _ => none
  | .mulu _ _, _ => none
  | .and _ _, _ => none
  | .or _ _, _ => none
  | .xor _ _, _ => none
  | .shl _ _, _ => none
  | .shr _ _, _ => none
  | .cmp _ _, _ => none
  | .cmpu _ _, _ => none
  | .bc _ _, _ => none
  | .bcl a _, s => if taken s.cr (s.reg a) then some ((s.sp - 8#64).toNat, 8) else none
  | .div _ _ _, _ => none
  | .divu _ _ _, _ => none
  | .bal _ _ _, _ => none
  | .lsm _ _ _, _ => none
  | .stm a b c, s => if a ≤ b then some ((s.reg c).toNat, 8) else none
  | .mskr _ _ _, _ => none
  | .msks _ _ c, s => some ((s.reg c).toNat, 8)
  | .li _ _, _ => none

/-- `s` and `t` agree on everything but the interrupt-enable flag (rule R34). -/
def agreeButIe (s t : State) : Prop := t.setIe s.ie = s

/-- Two runs answer alike: next states that agree on everything but the interrupt-enable flag, or the same stop. -/
def outcomesAgreeButIe : Host.Outcome State Fault Refusal → Host.Outcome State Fault Refusal → Prop
  | .next u, .next v => agreeButIe u v
  | .fault p, .fault q => p = q
  | .refused p, .refused q => p = q
  | _, _ => False

end Sys2Proof.Machine
end

