-- ==== Sys2Proof/Certificates/Slice0/Obligations.lean ====
section
/-!
DEFINITION. The statements for the provers, from the numbered rules of the spec. An instruction's statement says where
the instruction completes, what it writes, and what it leaves unchanged; where it faults, the statement says so
separately. `s.takeFault c` is the state `s` with the status `Faulted(c, s.pc)` and nothing else changed.
-/

open Sys2Proof Sys2Proof.Machine

/-! ### Encoding and decoding -/

/-- R94, R96, R97: under every opcode map, the encoding of a well-formed instruction, whatever follows it, decodes to
that instruction and leaves what follows. -/
def Obligations.DecodeOfEncodeIsTheInstruction : Prop :=
  ∀ (m : OpMap) (i : Instr) (rest : List Byte),
    i.wellFormed m = true → decode m (encode m i ++ rest) = .ok (i, rest)

/-- R94, R100: under every opcode map, whatever decodes to an instruction is that instruction's encoding followed by
the bytes left over: no bit of an encoding is dropped and no instruction has two encodings. -/
def Obligations.DecodedBytesAreTheEncoding : Prop :=
  ∀ (m : OpMap) (bs rest : List Byte) (i : Instr),
    decode m bs = .ok (i, rest) → bs = encode m i ++ rest

/-- R104's encoding examples, and one byte string of each class, decode under the reference assignment. -/
def Obligations.SampleBytesDecode : Prop :=
  decode OpMap.reference [0x00#8] = .ok (.halt, []) ∧
  decode OpMap.reference [0xF1#8] = .ok (.ret, []) ∧
  decode OpMap.reference [0x8A#8, 0x02#8] = .ok (.int 2#8, []) ∧
  decode OpMap.reference [0x20#8, 0x01#8, 0x02#8] = .ok (.add 1#8 2#8, []) ∧
  decode OpMap.reference [0xC0#8, 0x03#8, 0x07#8, 0x08#8] = .ok (.div 3#8 7#8 8#8, []) ∧
  decode OpMap.reference
      [0xE0#8, 0x05#8, 0x11#8, 0x22#8, 0x33#8, 0x44#8, 0x55#8, 0x66#8, 0x77#8, 0x88#8] =
    .ok (.li 5#8 0x1122334455667788#64, [])

/-- R91, R92: the byte `0x00` is HALT under every opcode map and whatever follows it, and no other opcode byte is HALT;
the class of every other byte is chosen by its high nibble (so `0x01` to `0x0F` are two-register bytes), and each class
has its width. -/
def Obligations.OpcodeByteChoosesHaltOrClass : Prop :=
  (∀ (m : OpMap) (bs : List Byte), decode m (0x00#8 :: bs) = .ok (.halt, bs)) ∧
  (∀ (m : OpMap) (op : Byte) (bs rest : List Byte), decode m (op :: bs) = .ok (.halt, rest) → op = 0x00#8) ∧
  (∀ op : Byte,
    (op.extractLsb' 4 4 = 0xF#4 → classOf op = .z) ∧
    (op.extractLsb' 4 4 = 0x8#4 → classOf op = .r1) ∧
    (op.extractLsb' 4 4 = 0xC#4 → classOf op = .r3) ∧
    (op.extractLsb' 4 4 = 0xE#4 → classOf op = .imm) ∧
    (op.extractLsb' 4 4 ∉ [0xF#4, 0x8#4, 0xC#4, 0xE#4] → classOf op = .r2)) ∧
  OpClass.width .z = 1 ∧ OpClass.width .r1 = 2 ∧ OpClass.width .r2 = 3 ∧
  OpClass.width .r3 = 4 ∧ OpClass.width .imm = 10

/-- R102: the length of an instruction is known from its first byte alone: 1 for HALT, otherwise the class width. -/
def Obligations.LengthIsKnownFromTheFirstByte : Prop :=
  ∀ (m : OpMap) (op : Byte) (bs rest : List Byte) (i : Instr),
    decode m (op :: bs) = .ok (i, rest) →
      ∃ operands, bs = operands ++ rest ∧
        1 + operands.length = if op = 0x00#8 then 1 else (classOf op).width

/-- R99, R100: under the reference assignment the bytes rejected as illegal are exactly the listed ones, whatever follows
them. -/
def Obligations.IllegalOpcodesOfTheReferenceMap : Prop :=
  ∀ (op : Byte) (bs : List Byte),
    decode OpMap.reference (op :: bs) = .error (.illegalOpcode op) ↔
      (0xF4 ≤ op.toNat ∧ op.toNat ≤ 0xFF) ∨ (0x8B ≤ op.toNat ∧ op.toNat ≤ 0x8F) ∨
      (0xC7 ≤ op.toNat ∧ op.toNat ≤ 0xCF) ∨ (0xE1 ≤ op.toNat ∧ op.toNat ≤ 0xEF) ∨
      (0x01 ≤ op.toNat ∧ op.toNat ≤ 0x0F) ∨ (0x13 ≤ op.toNat ∧ op.toNat ≤ 0x1F) ∨
      (0x26 ≤ op.toNat ∧ op.toNat ≤ 0x2F) ∨ (0x35 ≤ op.toNat ∧ op.toNat ≤ 0x3F) ∨
      (0x42 ≤ op.toNat ∧ op.toNat ≤ 0x4F) ∨ (0x52 ≤ op.toNat ∧ op.toNat ≤ 0x5F) ∨
      (0x60 ≤ op.toNat ∧ op.toNat ≤ 0x7F) ∨ (0x90 ≤ op.toNat ∧ op.toNat ≤ 0xBF) ∨
      (0xD0 ≤ op.toNat ∧ op.toNat ≤ 0xDF)

/-! ### The step -/

/-- R101: where the bytes at the program counter of a running machine decode to `i`, the step is `exec i` at that
state; `exec` itself moves the program counter past the instruction. -/
def Obligations.StepRunsTheDecodedInstruction : Prop :=
  ∀ (s : State) (i : Instr) (rest : List Byte),
    s.status = .running → decode s.cfg.opmap s.fetchWindow = .ok (i, rest) → step s = exec i s

/-- R70, R94, R101: where memory holds the encoding of a well-formed instruction at the program counter, wholly inside
memory, the step of a running machine is that instruction's. -/
def Obligations.StepRunsTheInstructionInMemory : Prop :=
  ∀ (s : State) (i : Instr),
    s.status = .running → i.wellFormed s.cfg.opmap = true →
    s.pc.toNat + (encode s.cfg.opmap i).length ≤ s.cfg.memSize.toNat →
    (∀ k, k < (encode s.cfg.opmap i).length →
      s.mem.read (s.pc.toNat + k) = (encode s.cfg.opmap i).getD k 0#8) →
    step s = exec i s

/-- R101, R313: the step of a running machine checks, in this order, the opcode fetch, the HALT test, the opcode map and
the operand fetches, and only then runs the instruction. -/
def Obligations.StepChecksInOrder : Prop :=
  ∀ s : State, s.status = .running →
    (s.cfg.memSize.toNat ≤ s.pc.toNat → step s = .next (s.takeFault (.addressFault s.pc .byte .fetch))) ∧
    (s.pc.toNat < s.cfg.memSize.toNat →
      (s.mem.read s.pc.toNat = 0x00#8 → step s = .next (s.setStatus .halted)) ∧
      (s.mem.read s.pc.toNat ≠ 0x00#8 →
        (s.cfg.opmap.lookup (s.mem.read s.pc.toNat) = none →
          step s = .next (s.takeFault (.decodeError (s.mem.read s.pc.toNat)))) ∧
        (∀ k, s.cfg.opmap.lookup (s.mem.read s.pc.toNat) = some k →
          (s.cfg.memSize.toNat < s.pc.toNat + k.cls.width →
            step s = .next (s.takeFault (.addressFault s.cfg.memSize .byte .fetch))) ∧
          (s.pc.toNat + k.cls.width ≤ s.cfg.memSize.toNat →
            ∃ i, i.op? = some k ∧ step s = exec i s))))

/-- R45: a running machine always takes a step, to a new state; a machine that has halted or faulted takes none. No
step is refused. -/
def Obligations.StepAnswersExactlyWhileRunning : Prop :=
  ∀ s : State,
    (s.status = .running → ∃ t, step s = .next t) ∧
    (s.status ≠ .running → ∀ t, step s ≠ .next t) ∧
    (∀ r, step s ≠ .refused r)

/-- R311, R312, R314 and R26: a step that faults leaves the state as it was before it, but for the status, whose record
holds the program counter of the instruction; a step that halts leaves the state as it was, but for the status. -/
def Obligations.StoppingStepsChangeOnlyTheStatus : Prop :=
  ∀ s t : State, step s = .next t →
    (∀ r, t.status = .faulted r → t = s.setStatus (.faulted r) ∧ r.pc = s.pc) ∧
    (t.status = .halted → t = s.setStatus .halted)

/-- Every step keeps the invariant: memory has its canonical form and lists only addresses inside `[0, MEM_SIZE)`, and a
fault record names the program counter (R26, R60, R314). The canonical form is the model's own choice (log entry 8). -/
def Obligations.EveryStepKeepsTheInvariant : Prop :=
  ∀ s t : State, s.Inv → step s = .next t → t.Inv

/-- The reset state meets the invariant (its canonical form of memory is the model's own choice, log entry 8). -/
def Obligations.ResetMeetsTheInvariant : Prop :=
  State.reset.Inv

/-- R5, R41, R48, R49: no step changes the configuration; and the state built from a configuration takes the stack top
from it, or the memory size if none is given, and the interrupt-vector base from it, or
`stackTop - 8*stackReservedWordCount` if none is given. -/
def Obligations.ConfigurationIsConstant : Prop :=
  (∀ s t : State, step s = .next t → t.cfg = s.cfg) ∧
  (∀ c : Config, (State.construct c).cfg = c) ∧
  (∀ (c : Config) (v : Word), c.stackTop = some v → (State.construct c).sp = v) ∧
  (∀ c : Config, c.stackTop = none → (State.construct c).sp = c.memSize) ∧
  (∀ (c : Config) (v : Word), c.ivtBase = some v → (State.construct c).ip = v) ∧
  (∀ c : Config, c.ivtBase = none →
    (State.construct c).ip = (State.construct c).sp - 8#64 * c.stackWords)

/-- R28: an instruction that is fetched whole ends inside the 64-bit address range: the advance of the program counter
does not wrap. -/
def Obligations.PcAdvanceNeverWraps : Prop :=
  ∀ (s : State) (i : Instr), s.fetchDecode = .ok i →
    s.pc.toNat + (encode s.cfg.opmap i).length ≤ s.cfg.memSize.toNat ∧
    (s.pc + BitVec.ofNat 64 (encode s.cfg.opmap i).length).toNat =
      s.pc.toNat + (encode s.cfg.opmap i).length

/-! ### Rules about every instruction -/

/-- R29, R30, R33, R34, their write side: `sp` is written only by MTSP, PUSH, POP, RET, BCL and INT, `ip` only by MTIP,
`cr` only by CMP, CMPU and MTCR, `ie` only by DI and EI. -/
def Obligations.WritersOfTheSpecialRegisters : Prop :=
  ∀ (i : Instr) (s t : State), exec i s = .next t →
    ((∀ a, i ≠ .mtsp a) → (∀ a, i ≠ .push a) → (∀ a, i ≠ .pop a) → i ≠ .ret → (∀ a b, i ≠ .bcl a b) →
      (∀ a, i ≠ .int a) → t.sp = s.sp) ∧
    ((∀ a, i ≠ .mtip a) → t.ip = s.ip) ∧
    ((∀ a b, i ≠ .cmp a b) → (∀ a b, i ≠ .cmpu a b) → (∀ a, i ≠ .mtcr a) → t.cr = s.cr) ∧
    (i ≠ .di → i ≠ .ei → t.ie = s.ie)

/-- R23, its write side: an instruction writes no general register but those the table gives it. -/
def Obligations.WritersOfTheGeneralRegisters : Prop :=
  ∀ (i : Instr) (s t : State) (r : RegNum), exec i s = .next t → ¬ writesGpr i r → t.reg r = s.reg r

/-- R71: every byte of memory outside the bytes the instruction stores to reads as before; an instruction that stores
nothing leaves every byte. -/
def Obligations.StoresTouchOnlyTheirBytes : Prop :=
  ∀ (i : Instr) (s t : State) (p : Nat), exec i s = .next t →
    (∀ a n, storeSpan i s = some (a, n) → p < a ∨ a + n ≤ p) → t.mem.read p = s.mem.read p

/-- R43: the output port only grows, by at most one byte, and only by INT with interrupt number 1. -/
def Obligations.OnlyTheSystemCallEmits : Prop :=
  ∀ (i : Instr) (s t : State), exec i s = .next t →
    t.out = s.out ∨
      ∃ a b, i = .int a ∧ lowByte (s.reg a) = 1#8 ∧ t.out = s.out ++ [b]

/-- R34: a program cannot observe the interrupt-enable flag. Two runs from states that differ in it alone answer alike
after every number of steps. -/
def Obligations.InterruptEnableIsUnobservable : Prop :=
  ∀ (k : Nat) (s t : State), agreeButIe s t →
    outcomesAgreeButIe (Sys2Proof.core.run k s) (Sys2Proof.core.run k t)

/-- R359: a run under fuel ends in Halted exactly when some number of steps within the fuel leads to a halted state, and
ends in Faulted exactly when some number of steps leads to a state faulted with that record. -/
def Obligations.RunsEndExactlyInAStoppedState : Prop :=
  ∀ (k : Nat) (s t : State),
    (runToEnd k s = .halted t ↔ ∃ j, j ≤ k ∧ Sys2Proof.core.run j s = .next t ∧ t.status = .halted) ∧
    (∀ r, runToEnd k s = .faulted r t ↔
      ∃ j, j ≤ k ∧ Sys2Proof.core.run j s = .next t ∧ t.status = .faulted r)

/-! ### Zero-operand class -/

/-- R120: HALT stops the machine with no error and changes nothing else; it is the step of a running machine whose
byte at the program counter is `0x00`; it faults only where that byte cannot be fetched; after it no step is
defined. -/
def Obligations.HaltStopsTheMachine : Prop :=
  (∀ m, encode m .halt = [0x00#8]) ∧
  (∀ s : State, exec .halt s = .next (s.setStatus .halted)) ∧
  (∀ s : State, s.status = .running → s.pc.toNat < s.cfg.memSize.toNat → s.mem.read s.pc.toNat = 0x00#8 →
    step s = .next (s.setStatus .halted)) ∧
  (∀ s : State, s.status = .running → s.cfg.memSize.toNat ≤ s.pc.toNat →
    step s = .next (s.takeFault (.addressFault s.pc .byte .fetch))) ∧
  (∀ s : State, s.status = .halted → ∀ t, step s ≠ .next t)

/-- R121: NOP only moves the program counter. -/
def Obligations.NopOnlyMovesThePc : Prop :=
  encodesAs .nop .nop 0xF0#8 [] ∧
  ∀ s : State, ∃ t, exec .nop s = .next t ∧ onlyMovesPc s t (s.pc + 1#64)

/-- R122: RET pops the program counter, unchecked; where the word at `sp` is not in memory it faults. -/
def Obligations.RetPopsThePc : Prop :=
  encodesAs .ret .ret 0xF1#8 [] ∧
  ∀ s : State,
    (s.canPop → ∃ t, exec .ret s = .next t ∧
      t.pc = s.mem.readWord s.sp.toNat ∧ t.sp = s.sp + 8#64 ∧
      sameRegs s t ∧ t.ip = s.ip ∧ t.cr = s.cr ∧ t.ie = s.ie ∧ sameRun s t ∧ sameMemory s t) ∧
    (¬ s.canPop → exec .ret s = .next (s.takeFault (.addressFault s.sp .word .read)))

/-- R123, R124: DI clears and EI sets the interrupt-enable flag, and nothing else changes but the program counter. -/
def Obligations.DiAndEiWriteOnlyTheFlag : Prop :=
  encodesAs .di .di 0xF2#8 [] ∧ encodesAs .ei .ei 0xF3#8 [] ∧
  ∀ s : State,
    (∃ t, exec .di s = .next t ∧ t.ie = false ∧ t.pc = s.pc + 1#64 ∧ sameRegs s t ∧
      t.sp = s.sp ∧ t.ip = s.ip ∧ t.cr = s.cr ∧ sameRun s t ∧ sameMemory s t) ∧
    (∃ t, exec .ei s = .next t ∧ t.ie = true ∧ t.pc = s.pc + 1#64 ∧ sameRegs s t ∧
      t.sp = s.sp ∧ t.ip = s.ip ∧ t.cr = s.cr ∧ sameRun s t ∧ sameMemory s t)

/-! ### One-register class -/

/-- R140 to R143: MFPC reads the address of the next instruction, MFSP, MFIP and MFCR their register whole. -/
def Obligations.SpecialRegisterReads : Prop :=
  ∀ (s : State) (a : RegNum),
    encodesAs (.mfpc a) .mfpc 0x80#8 [a] ∧ encodesAs (.mfsp a) .mfsp 0x81#8 [a] ∧
    encodesAs (.mfip a) .mfip 0x82#8 [a] ∧ encodesAs (.mfcr a) .mfcr 0x83#8 [a] ∧
    (∃ t, exec (.mfpc a) s = .next t ∧ writesReg s t 2 a (s.pc + 2#64)) ∧
    (∃ t, exec (.mfsp a) s = .next t ∧ writesReg s t 2 a s.sp) ∧
    (∃ t, exec (.mfip a) s = .next t ∧ writesReg s t 2 a s.ip) ∧
    (∃ t, exec (.mfcr a) s = .next t ∧ writesReg s t 2 a s.cr)

/-- R144: NOT complements every bit of the register in place. -/
def Obligations.NotComplementsInPlace : Prop :=
  ∀ (s : State) (a : RegNum),
    encodesAs (.not a) .not 0x84#8 [a] ∧
    ∃ t v, exec (.not a) s = .next t ∧ writesReg s t 2 a v ∧
      ∀ i, i < 64 → v.getLsbD i = !(s.reg a).getLsbD i

/-- R145, R74: PUSH writes the register at `sp - 8` and moves `sp` there; where that word is not in memory it
faults. -/
def Obligations.PushStoresBelowSp : Prop :=
  ∀ (s : State) (a : RegNum),
    encodesAs (.push a) .push 0x85#8 [a] ∧
    (s.canPush → ∃ t, exec (.push a) s = .next t ∧ pushed s t (s.reg a) ∧ t.pc = s.pc + 2#64) ∧
    (¬ s.canPush → exec (.push a) s = .next (s.takeFault (.addressFault (s.sp - 8#64) .word .write)))

/-- R146, R75: POP reads the word at `sp` into the register and moves `sp` up by 8; where that word is not in memory it
faults. -/
def Obligations.PopLoadsFromSp : Prop :=
  ∀ (s : State) (a : RegNum),
    encodesAs (.pop a) .pop 0x86#8 [a] ∧
    (s.canPop → ∃ t, exec (.pop a) s = .next t ∧
      t.reg a = s.mem.readWord s.sp.toNat ∧ t.sp = s.sp + 8#64 ∧ t.pc = s.pc + 2#64 ∧
      sameRegsBut s t a ∧ t.ip = s.ip ∧ t.cr = s.cr ∧ t.ie = s.ie ∧ sameRun s t ∧ sameMemory s t) ∧
    (¬ s.canPop → exec (.pop a) s = .next (s.takeFault (.addressFault s.sp .word .read)))

/-- The source's law of the stack (R75, E2): a POP after a PUSH gets the pushed value and restores `sp`. -/
def Obligations.PopAfterPushRestores : Prop :=
  ∀ (s t : State) (a b : RegNum), s.canPush → exec (.push a) s = .next t →
    ∃ u, exec (.pop b) t = .next u ∧ u.reg b = s.reg a ∧ u.sp = s.sp

/-- R147 to R149: MTSP, MTIP and MTCR write any value, unchecked, and no general register. -/
def Obligations.SpecialRegisterWrites : Prop :=
  ∀ (s : State) (a : RegNum),
    encodesAs (.mtsp a) .mtsp 0x87#8 [a] ∧ encodesAs (.mtip a) .mtip 0x88#8 [a] ∧
    encodesAs (.mtcr a) .mtcr 0x89#8 [a] ∧
    (∃ t, exec (.mtsp a) s = .next t ∧ t.sp = s.reg a ∧ t.pc = s.pc + 2#64 ∧ sameRegs s t ∧
      t.ip = s.ip ∧ t.cr = s.cr ∧ t.ie = s.ie ∧ sameRun s t ∧ sameMemory s t) ∧
    (∃ t, exec (.mtip a) s = .next t ∧ t.ip = s.reg a ∧ t.pc = s.pc + 2#64 ∧ sameRegs s t ∧
      t.sp = s.sp ∧ t.cr = s.cr ∧ t.ie = s.ie ∧ sameRun s t ∧ sameMemory s t) ∧
    (∃ t, exec (.mtcr a) s = .next t ∧ t.cr = s.reg a ∧ t.pc = s.pc + 2#64 ∧ sameRegs s t ∧
      t.sp = s.sp ∧ t.ip = s.ip ∧ t.ie = s.ie ∧ sameRun s t ∧ sameMemory s t)

/-- R150, R301 to R304: INT takes its number from the low byte of the register. Number 1 is the system call: with 1 in
`x[0]` it appends the low byte of `x[1]` to the output and changes nothing else but the program counter; with any
other word in `x[0]` it faults. -/
def Obligations.IntNumberOneIsTheSystemCall : Prop :=
  ∀ (s : State) (a : RegNum),
    encodesAs (.int a) .int 0x8A#8 [a] ∧
    ((s.reg a).toNat % 256 = 1 →
      (s.callsEmit → ∃ t, exec (.int a) s = .next t ∧
        t.out = s.out ++ [lowByte (s.reg 1#8)] ∧ t.pc = s.pc + 2#64 ∧
        sameRegs s t ∧ sameSpecials s t ∧ t.cfg = s.cfg ∧ t.status = s.status ∧ sameMemory s t) ∧
      (¬ s.callsEmit → exec (.int a) s = .next (s.takeFault (.unknownSystemCall (s.reg 0#8)))))

/-- R305 to R307: INT with any number but 1 pushes the address after itself and jumps to the word in the vector table's
entry, read after the push; whatever `ie` holds, nothing else changes. The push is checked before the table read, and
a fault of either undoes the whole instruction. -/
def Obligations.IntEntersTheVector : Prop :=
  ∀ (s : State) (a : RegNum), (s.reg a).toNat % 256 ≠ 1 →
    (s.canPush → s.vectorFits (lowByte (s.reg a)) →
      ∃ t, exec (.int a) s = .next t ∧ pushed s t (s.pc + 2#64) ∧
        t.pc = t.mem.readWord (s.ip + BitVec.ofNat 64 ((s.reg a).toNat % 256) * 8#64).toNat) ∧
    (¬ s.canPush → exec (.int a) s = .next (s.takeFault (.addressFault (s.sp - 8#64) .word .write))) ∧
    (s.canPush → ¬ s.vectorFits (lowByte (s.reg a)) →
      exec (.int a) s =
        .next (s.takeFault (.addressFault (s.ip + BitVec.ofNat 64 ((s.reg a).toNat % 256) * 8#64) .word .read)))

/-- R308 and the source's round trip (E7): where the pushed word does not overlap the vector's entry, a RET at the
handler's first instruction returns to the instruction after the INT, with `sp` and every general register as before
it. -/
def Obligations.RetReturnsFromAnInterrupt : Prop :=
  ∀ (s t : State) (a : RegNum), (s.reg a).toNat % 256 ≠ 1 →
    s.canPush → s.vectorFits (lowByte (s.reg a)) →
    ((s.vectorAddr (lowByte (s.reg a))).toNat + 8 ≤ (s.sp - 8#64).toNat ∨
      (s.sp - 8#64).toNat + 8 ≤ (s.vectorAddr (lowByte (s.reg a))).toNat) →
    exec (.int a) s = .next t →
    t.pc = s.mem.readWord (s.vectorAddr (lowByte (s.reg a))).toNat ∧
      ∃ u, exec .ret t = .next u ∧ u.pc = s.pc + 2#64 ∧ u.sp = s.sp ∧ sameRegs s u

/-! ### Two-register class -/

/-- R171: MOV copies a register. -/
def Obligations.MovCopiesARegister : Prop :=
  ∀ (s : State) (a b : RegNum),
    encodesAs (.mov a b) .mov 0x10#8 [a, b] ∧
    ∃ t, exec (.mov a b) s = .next t ∧ writesReg s t 3 a (s.reg b)

/-- R172: LB loads the byte at the address in `x[b]`, zero-extended, up to the last byte of memory; beyond it, it
faults. -/
def Obligations.LbLoadsAByte : Prop :=
  ∀ (s : State) (a b : RegNum),
    encodesAs (.lb a b) .lb 0x11#8 [a, b] ∧
    ((s.reg b).toNat < s.cfg.memSize.toNat →
      ∃ t v, exec (.lb a b) s = .next t ∧ writesReg s t 3 a v ∧
        v.toNat = (s.mem.read (s.reg b).toNat).toNat) ∧
    (s.cfg.memSize.toNat ≤ (s.reg b).toNat →
      exec (.lb a b) s = .next (s.takeFault (.addressFault (s.reg b) .byte .read)))

/-- R173: SB stores the low byte of `x[b]` at the address in `x[a]` and no other byte; beyond memory it faults. -/
def Obligations.SbStoresAByte : Prop :=
  ∀ (s : State) (a b : RegNum),
    encodesAs (.sb a b) .sb 0x12#8 [a, b] ∧
    ((s.reg a).toNat < s.cfg.memSize.toNat →
      ∃ t, exec (.sb a b) s = .next t ∧
        (t.mem.read (s.reg a).toNat).toNat = (s.reg b).toNat % 256 ∧
        sameMemoryOutside s t (s.reg a).toNat 1 ∧
        t.pc = s.pc + 3#64 ∧ sameRegs s t ∧ sameSpecials s t ∧ sameRun s t) ∧
    (s.cfg.memSize.toNat ≤ (s.reg a).toNat →
      exec (.sb a b) s = .next (s.takeFault (.addressFault (s.reg a) .byte .write)))

/-- R174 to R179: the adds, subtracts and multiplies compute on the integers the rule names, modulo 2^64, and never
fault. -/
def Obligations.ArithmeticResults : Prop :=
  ∀ (s : State) (a b : RegNum),
    encodesAs (.add a b) .add 0x20#8 [a, b] ∧ encodesAs (.addu a b) .addu 0x21#8 [a, b] ∧
    encodesAs (.sub a b) .sub 0x22#8 [a, b] ∧ encodesAs (.subu a b) .subu 0x23#8 [a, b] ∧
    encodesAs (.mul a b) .mul 0x24#8 [a, b] ∧ encodesAs (.mulu a b) .mulu 0x25#8 [a, b] ∧
    (∃ t v, exec (.add a b) s = .next t ∧ writesReg s t 3 a v ∧
      (v.toNat : Int) = ((s.reg a).toInt + (s.reg b).toInt) % 2 ^ 64) ∧
    (∃ t v, exec (.addu a b) s = .next t ∧ writesReg s t 3 a v ∧
      (v.toNat : Int) = (((s.reg a).toNat : Int) + (s.reg b).toNat) % 2 ^ 64) ∧
    (∃ t v, exec (.sub a b) s = .next t ∧ writesReg s t 3 a v ∧
      (v.toNat : Int) = ((s.reg a).toInt - (s.reg b).toInt) % 2 ^ 64) ∧
    (∃ t v, exec (.subu a b) s = .next t ∧ writesReg s t 3 a v ∧
      (v.toNat : Int) = (((s.reg a).toNat : Int) - (s.reg b).toNat) % 2 ^ 64) ∧
    (∃ t v, exec (.mul a b) s = .next t ∧ writesReg s t 3 a v ∧
      (v.toNat : Int) = ((s.reg a).toInt * (s.reg b).toInt) % 2 ^ 64) ∧
    (∃ t v, exec (.mulu a b) s = .next t ∧ writesReg s t 3 a v ∧
      (v.toNat : Int) = (((s.reg a).toNat : Int) * (s.reg b).toNat) % 2 ^ 64)

/-- R180 to R182: the logical instructions work bit by bit. -/
def Obligations.LogicalResults : Prop :=
  ∀ (s : State) (a b : RegNum),
    encodesAs (.and a b) .and 0x30#8 [a, b] ∧ encodesAs (.or a b) .or 0x31#8 [a, b] ∧
    encodesAs (.xor a b) .xor 0x32#8 [a, b] ∧
    (∃ t v, exec (.and a b) s = .next t ∧ writesReg s t 3 a v ∧
      ∀ i, i < 64 → v.getLsbD i = ((s.reg a).getLsbD i && (s.reg b).getLsbD i)) ∧
    (∃ t v, exec (.or a b) s = .next t ∧ writesReg s t 3 a v ∧
      ∀ i, i < 64 → v.getLsbD i = ((s.reg a).getLsbD i || (s.reg b).getLsbD i)) ∧
    (∃ t v, exec (.xor a b) s = .next t ∧ writesReg s t 3 a v ∧
      ∀ i, i < 64 → v.getLsbD i = Bool.xor ((s.reg a).getLsbD i) ((s.reg b).getLsbD i))

/-- R183, R184: the shifts take the whole of `x[b]` as the amount, fill with zeros, and give 0 from 64 on. -/
def Obligations.ShiftResults : Prop :=
  ∀ (s : State) (a b : RegNum),
    encodesAs (.shl a b) .shl 0x33#8 [a, b] ∧ encodesAs (.shr a b) .shr 0x34#8 [a, b] ∧
    (∃ t v, exec (.shl a b) s = .next t ∧ writesReg s t 3 a v ∧
      v.toNat = if (s.reg b).toNat ≥ 64 then 0 else (s.reg a).toNat * 2 ^ (s.reg b).toNat % 2 ^ 64) ∧
    (∃ t v, exec (.shr a b) s = .next t ∧ writesReg s t 3 a v ∧
      v.toNat = if (s.reg b).toNat ≥ 64 then 0 else (s.reg a).toNat / 2 ^ (s.reg b).toNat)

/-- The first law of R191: each signed add, subtract and multiply does exactly what its unsigned twin does. -/
def Obligations.SignedAndUnsignedArithmeticAgree : Prop :=
  ∀ (s : State) (a b : RegNum),
    exec (.add a b) s = exec (.addu a b) s ∧
    exec (.sub a b) s = exec (.subu a b) s ∧
    exec (.mul a b) s = exec (.mulu a b) s

/-- R185 to R187: a compare writes `cr` as `CMP_CR_UPDATE` says, from the flag of the signed or the unsigned order, and
writes no general register. -/
def Obligations.ComparesWriteTheFlag : Prop :=
  ∀ (s : State) (a b : RegNum),
    encodesAs (.cmp a b) .cmp 0x40#8 [a, b] ∧ encodesAs (.cmpu a b) .cmpu 0x41#8 [a, b] ∧
    (∃ t f, exec (.cmp a b) s = .next t ∧
      ((s.reg a).toInt < (s.reg b).toInt → f = 0x8000000000000000#64) ∧
      ((s.reg a).toInt > (s.reg b).toInt → f = 0x4000000000000000#64) ∧
      (s.reg a = s.reg b → f = 0x2000000000000000#64) ∧
      (s.cfg.cmpCrUpdate = .intended → t.cr = f) ∧
      (s.cfg.cmpCrUpdate = .literalNoop → t.cr = s.cr) ∧
      (s.cfg.cmpCrUpdate = .literalAnd → t.cr = s.cr &&& f) ∧
      t.pc = s.pc + 3#64 ∧ sameRegs s t ∧ t.sp = s.sp ∧ t.ip = s.ip ∧ t.ie = s.ie ∧ sameRun s t ∧ sameMemory s t) ∧
    (∃ t f, exec (.cmpu a b) s = .next t ∧
      ((s.reg a).toNat < (s.reg b).toNat → f = 0x8000000000000000#64) ∧
      ((s.reg a).toNat > (s.reg b).toNat → f = 0x4000000000000000#64) ∧
      (s.reg a = s.reg b → f = 0x2000000000000000#64) ∧
      (s.cfg.cmpCrUpdate = .intended → t.cr = f) ∧
      (s.cfg.cmpCrUpdate = .literalNoop → t.cr = s.cr) ∧
      (s.cfg.cmpCrUpdate = .literalAnd → t.cr = s.cr &&& f) ∧
      t.pc = s.pc + 3#64 ∧ sameRegs s t ∧ t.sp = s.sp ∧ t.ip = s.ip ∧ t.ie = s.ie ∧ sameRun s t ∧ sameMemory s t)

/-- R188: the branch test asks that every bit set in the mask is set in `cr`; a zero mask is always taken, and after a
compare under `intended` a mask with both the LT and the EQ flag is never taken. -/
def Obligations.BranchTestIsBitInclusion : Prop :=
  (∀ cr m : Word, taken cr m = true ↔ ∀ i, i < 64 → m.getLsbD i = true → cr.getLsbD i = true) ∧
  (∀ cr : Word, taken cr 0#64 = true) ∧
  (∀ (s t : State) (a b : RegNum) (m : Word), s.cfg.cmpCrUpdate = .intended →
    (exec (.cmp a b) s = .next t ∨ exec (.cmpu a b) s = .next t) →
    m.getLsbD 63 = true → m.getLsbD 61 = true → taken t.cr m = false)

/-- R189: BC jumps to the absolute target, unchecked, when every bit of the mask is set in `cr`, and otherwise goes on;
nothing else changes. -/
def Obligations.BcBranchesOnTheMask : Prop :=
  ∀ (s : State) (a b : RegNum),
    encodesAs (.bc a b) .bc 0x50#8 [a, b] ∧
    (s.cr &&& s.reg a = s.reg a → ∃ t, exec (.bc a b) s = .next t ∧ onlyMovesPc s t (s.reg b)) ∧
    (s.cr &&& s.reg a ≠ s.reg a → ∃ t, exec (.bc a b) s = .next t ∧ onlyMovesPc s t (s.pc + 3#64))

/-- R190: a taken BCL pushes the address after itself and jumps; one not taken changes only the program counter; a taken
one whose push does not fit faults. -/
def Obligations.BclLinksOnTheStack : Prop :=
  ∀ (s : State) (a b : RegNum),
    encodesAs (.bcl a b) .bcl 0x51#8 [a, b] ∧
    (s.cr &&& s.reg a = s.reg a →
      (s.canPush → ∃ t, exec (.bcl a b) s = .next t ∧ pushed s t (s.pc + 3#64) ∧ t.pc = s.reg b) ∧
      (¬ s.canPush → exec (.bcl a b) s = .next (s.takeFault (.addressFault (s.sp - 8#64) .word .write)))) ∧
    (s.cr &&& s.reg a ≠ s.reg a → ∃ t, exec (.bcl a b) s = .next t ∧ onlyMovesPc s t (s.pc + 3#64))

/-! ### Three-register class -/

/-- R221: DIV writes the quotient rounded toward zero to `x[a]` and then the remainder, of the dividend's sign, to
`x[c]`, so the remainder is what stays where the two are one register; a zero divisor and the one overflow fault. -/
def Obligations.DivQuotientAndRemainder : Prop :=
  ∀ (s : State) (a b c : RegNum),
    encodesAs (.div a b c) .div 0xC0#8 [a, b, c] ∧
    (s.reg b = 0#64 → exec (.div a b c) s = .next (s.takeFault .divideByZero)) ∧
    (s.reg a = 0x8000000000000000#64 → s.reg b = 0xFFFFFFFFFFFFFFFF#64 →
      exec (.div a b c) s = .next (s.takeFault .divideOverflow)) ∧
    (s.reg b ≠ 0#64 → ¬ (s.reg a = 0x8000000000000000#64 ∧ s.reg b = 0xFFFFFFFFFFFFFFFF#64) →
      ∃ t, exec (.div a b c) s = .next t ∧
        (a ≠ c → (t.reg a).toInt = (s.reg a).toInt.tdiv (s.reg b).toInt) ∧
        (t.reg c).toInt = (s.reg a).toInt - (s.reg a).toInt.tdiv (s.reg b).toInt * (s.reg b).toInt ∧
        (∀ r, r ≠ a → r ≠ c → t.reg r = s.reg r) ∧
        t.pc = s.pc + 4#64 ∧ sameSpecials s t ∧ sameRun s t ∧ sameMemory s t)

/-- R222: DIVU writes the quotient to `x[a]` and then the remainder to `x[c]`; a zero divisor faults. -/
def Obligations.DivuQuotientAndRemainder : Prop :=
  ∀ (s : State) (a b c : RegNum),
    encodesAs (.divu a b c) .divu 0xC1#8 [a, b, c] ∧
    (s.reg b = 0#64 → exec (.divu a b c) s = .next (s.takeFault .divideByZero)) ∧
    (s.reg b ≠ 0#64 →
      ∃ t, exec (.divu a b c) s = .next t ∧
        (a ≠ c → (t.reg a).toNat = (s.reg a).toNat / (s.reg b).toNat) ∧
        (t.reg c).toNat = (s.reg a).toNat % (s.reg b).toNat ∧
        (∀ r, r ≠ a → r ≠ c → t.reg r = s.reg r) ∧
        t.pc = s.pc + 4#64 ∧ sameSpecials s t ∧ sameRun s t ∧ sameMemory s t)

/-- The laws of R228: where DIV completes into two registers, the dividend is quotient times divisor plus remainder as
integers, the remainder is smaller than the divisor in magnitude, and it is 0 or has the dividend's sign; where DIVU
does, the same equation holds of the unsigned values, and the remainder is below the divisor. -/
def Obligations.DivisionLaws : Prop :=
  ∀ (s : State) (a b c : RegNum), a ≠ c → s.reg b ≠ 0#64 →
    (¬ (s.reg a = 0x8000000000000000#64 ∧ s.reg b = 0xFFFFFFFFFFFFFFFF#64) →
      ∃ t, exec (.div a b c) s = .next t ∧
        (s.reg a).toInt = (t.reg a).toInt * (s.reg b).toInt + (t.reg c).toInt ∧
        (t.reg c).toInt.natAbs < (s.reg b).toInt.natAbs ∧
        ((t.reg c).toInt = 0 ∨ (0 < (t.reg c).toInt ∧ 0 < (s.reg a).toInt) ∨
          ((t.reg c).toInt < 0 ∧ (s.reg a).toInt < 0))) ∧
    ∃ t, exec (.divu a b c) s = .next t ∧
      (s.reg a).toNat = (t.reg a).toNat * (s.reg b).toNat + (t.reg c).toNat ∧
      (t.reg c).toNat < (s.reg b).toNat

/-- R223: a taken BAL puts the address after itself in `x[c]` and jumps to the old `x[b]`; one not taken changes only
the program counter. -/
def Obligations.BalLinksInARegister : Prop :=
  ∀ (s : State) (a b c : RegNum),
    encodesAs (.bal a b c) .bal 0xC2#8 [a, b, c] ∧
    (s.cr &&& s.reg a = s.reg a →
      ∃ t, exec (.bal a b c) s = .next t ∧ t.reg c = s.pc + 4#64 ∧ t.pc = s.reg b ∧
        sameRegsBut s t c ∧ sameSpecials s t ∧ sameRun s t ∧ sameMemory s t) ∧
    (s.cr &&& s.reg a ≠ s.reg a → ∃ t, exec (.bal a b c) s = .next t ∧ onlyMovesPc s t (s.pc + 4#64))

/-- R224: LSM puts the one word at the address in `x[c]` in every register from `a` to `b`, `c` among them if it is one,
and in no other; a descending range faults before the address is looked at. -/
def Obligations.LsmLoadsOneWordIntoTheRun : Prop :=
  ∀ (s : State) (a b c : RegNum),
    encodesAs (.lsm a b c) .lsm 0xC3#8 [a, b, c] ∧
    (b < a → exec (.lsm a b c) s = .next (s.takeFault (.blockRange a b))) ∧
    (a ≤ b → s.cfg.memSize.toNat < (s.reg c).toNat + 8 →
      exec (.lsm a b c) s = .next (s.takeFault (.addressFault (s.reg c) .word .read))) ∧
    (a ≤ b → (s.reg c).toNat + 8 ≤ s.cfg.memSize.toNat →
      ∃ t, exec (.lsm a b c) s = .next t ∧
        (∀ r, a ≤ r → r ≤ b → t.reg r = s.mem.readWord (s.reg c).toNat) ∧
        (∀ r, r < a ∨ b < r → t.reg r = s.reg r) ∧
        t.pc = s.pc + 4#64 ∧ sameSpecials s t ∧ sameRun s t ∧ sameMemory s t)

/-- R225: STM leaves the last register of the run in the one word at the address in `x[c]` and touches no other byte; a
descending range faults before the address is looked at. -/
def Obligations.StmLeavesTheLastRegister : Prop :=
  ∀ (s : State) (a b c : RegNum),
    encodesAs (.stm a b c) .stm 0xC4#8 [a, b, c] ∧
    (b < a → exec (.stm a b c) s = .next (s.takeFault (.blockRange a b))) ∧
    (a ≤ b → s.cfg.memSize.toNat < (s.reg c).toNat + 8 →
      exec (.stm a b c) s = .next (s.takeFault (.addressFault (s.reg c) .word .write))) ∧
    (a ≤ b → (s.reg c).toNat + 8 ≤ s.cfg.memSize.toNat →
      ∃ t, exec (.stm a b c) s = .next t ∧
        t.mem.readWord (s.reg c).toNat = s.reg b ∧ sameMemoryOutside s t (s.reg c).toNat 8 ∧
        t.pc = s.pc + 4#64 ∧ sameRegs s t ∧ sameSpecials s t ∧ sameRun s t)

/-- R226: MSKR keeps the old bit where the mask is 0 and takes the value's bit where it is 1. -/
def Obligations.MskrMergesUnderTheMask : Prop :=
  ∀ (s : State) (a b c : RegNum),
    encodesAs (.mskr a b c) .mskr 0xC5#8 [a, b, c] ∧
    ∃ t v, exec (.mskr a b c) s = .next t ∧ writesReg s t 4 a v ∧
      ∀ i, i < 64 → v.getLsbD i = if (s.reg b).getLsbD i then (s.reg c).getLsbD i else (s.reg a).getLsbD i

/-- R227: MSKS merges the register into the word at the address in `x[c]` under the mask and touches no other byte; a
word that is not in memory faults as a read. -/
def Obligations.MsksStoresUnderTheMask : Prop :=
  ∀ (s : State) (a b c : RegNum),
    encodesAs (.msks a b c) .msks 0xC6#8 [a, b, c] ∧
    (s.cfg.memSize.toNat < (s.reg c).toNat + 8 →
      exec (.msks a b c) s = .next (s.takeFault (.addressFault (s.reg c) .word .read))) ∧
    ((s.reg c).toNat + 8 ≤ s.cfg.memSize.toNat →
      ∃ t, exec (.msks a b c) s = .next t ∧
        (∀ i, i < 64 → (t.mem.readWord (s.reg c).toNat).getLsbD i =
          if (s.reg b).getLsbD i then (s.reg a).getLsbD i
          else (s.mem.readWord (s.reg c).toNat).getLsbD i) ∧
        sameMemoryOutside s t (s.reg c).toNat 8 ∧
        t.pc = s.pc + 4#64 ∧ sameRegs s t ∧ sameSpecials s t ∧ sameRun s t)

/-! ### Immediate class -/

/-- R250, R96: LI puts the literal in the register as it is, and its bytes 2 to 9 are the literal, most significant byte
first. Where the opcode byte is fetched and the 10 bytes run past the end of memory, the step takes the fetch fault of the
first byte outside, the one at `MEM_SIZE`. -/
def Obligations.LiLoadsTheLiteral : Prop :=
  ∀ (s : State) (a : RegNum) (imm : Word),
    encodesAs (.li a imm) .li 0xE0#8
      (a :: (List.range 8).map fun i => imm.extractLsb' (56 - 8 * i) 8) ∧
    (∃ t, exec (.li a imm) s = .next t ∧ writesReg s t 10 a imm) ∧
    (s.status = .running → s.pc.toNat < s.cfg.memSize.toNat → s.mem.read s.pc.toNat ≠ 0x00#8 →
      s.cfg.opmap.lookup (s.mem.read s.pc.toNat) = some .li → s.cfg.memSize.toNat < s.pc.toNat + 10 →
      step s = .next (s.takeFault (.addressFault s.cfg.memSize .byte .fetch)))

/-! ### Memory -/

/-- R63, R65, R70: a byte is read, written or fetched exactly where its address lies in memory, and otherwise the access
raises `AddressFault`. -/
def Obligations.ByteAccesses : Prop :=
  ∀ (s : State) (a : Word) (v : Byte),
    (s.cfg.memSize.toNat ≤ a.toNat →
      s.loadByte a = .error (.addressFault a .byte .read) ∧
      s.fetchByte a = .error (.addressFault a .byte .fetch) ∧
      s.storeByte a v = .error (.addressFault a .byte .write)) ∧
    (a.toNat < s.cfg.memSize.toNat →
      s.loadByte a = .ok (s.mem.read a.toNat) ∧
      s.fetchByte a = .ok (s.mem.read a.toNat) ∧
      ∃ t, s.storeByte a v = .ok t ∧ t.mem.read a.toNat = v ∧ sameMemoryOutside s t a.toNat 1 ∧
        t.pc = s.pc ∧ sameRegs s t ∧ sameSpecials s t ∧ sameRun s t)

/-- R64, R66, R67: a word is read or written, most significant byte at the lowest address, exactly where all its eight
bytes lie in memory, at any alignment, and a word stored loads back as it was (§8, E1); otherwise the access raises
`AddressFault`, and so no byte is touched. -/
def Obligations.WordAccessesAreBigEndian : Prop :=
  ∀ (s : State) (a v : Word),
    (s.cfg.memSize.toNat < a.toNat + 8 →
      s.loadWord a = .error (.addressFault a .word .read) ∧
      s.storeWord a v = .error (.addressFault a .word .write)) ∧
    (a.toNat + 8 ≤ s.cfg.memSize.toNat →
      (∃ w, s.loadWord a = .ok w ∧
        ∀ i, i < 8 → w.extractLsb' (56 - 8 * i) 8 = s.mem.read (a.toNat + i)) ∧
      ∃ t, s.storeWord a v = .ok t ∧
        (∀ i, i < 8 → t.mem.read (a.toNat + i) = v.extractLsb' (56 - 8 * i) 8) ∧
        t.loadWord a = .ok v ∧ sameMemoryOutside s t a.toNat 8 ∧
        t.pc = s.pc ∧ sameRegs s t ∧ sameSpecials s t ∧ sameRun s t)

/-- R73: after a word store a byte load inside it gives the byte of its big-endian position, and a word loaded over
bytes stored one by one is their concatenation. -/
def Obligations.BytesInsideAWord : Prop :=
  (∀ (s t : State) (a v : Word) (i : Nat), i < 8 → s.storeWord a v = .ok t →
    t.loadByte (a + BitVec.ofNat 64 i) = .ok (v.extractLsb' (56 - 8 * i) 8)) ∧
  (∀ (m : Memory) (a : Nat) (b0 b1 b2 b3 b4 b5 b6 b7 : Byte),
    (((((((((m.write a b0).write (a + 1) b1).write (a + 2) b2).write (a + 3) b3).write (a + 4) b4).write
      (a + 5) b5).write (a + 6) b6).write (a + 7) b7).readWord a) =
      b0 ++ b1 ++ b2 ++ b3 ++ b4 ++ b5 ++ b6 ++ b7)

/-- R83: a byte stored by an SB that completes is what the next fetch of its address gives. -/
def Obligations.StoresAreSeenByTheNextFetch : Prop :=
  ∀ (s t : State) (a b : RegNum), exec (.sb a b) s = .next t → t.status = .running →
    t.fetchByte (s.reg a) = .ok (lowByte (s.reg b))

/-! ### Reset and launch -/

/-- R5, R46 to R52, R62: the state a configuration is reset to. That `State.reset` is the one of the reference
configuration (R6), launched with nothing loaded, is the model's choice (log entries 1 and 9). -/
def Obligations.ResetValues : Prop :=
  (State.reset.sp = 0x10000#64 ∧ State.reset.ip = 0xF000#64 ∧ State.reset.cfg.gprReset = .zero ∧
    State.reset.cfg.memSize = 0x10000#64 ∧ launch Config.reference [] [] = .next State.reset) ∧
  ∀ c : Config,
    (c.gprReset = .zero → ∀ r, (State.construct c).reg r = 0#64) ∧
    (State.construct c).pc = 0#64 ∧
    (∀ v, c.stackTop = some v → (State.construct c).sp = v) ∧
    (c.stackTop = none → (State.construct c).sp = c.memSize) ∧
    (∀ v, c.ivtBase = some v → (State.construct c).ip = v) ∧
    (c.ivtBase = none → (State.construct c).ip = (State.construct c).sp - 8#64 * c.stackWords) ∧
    (State.construct c).cr = 0#64 ∧ (State.construct c).ie = false ∧
    (State.construct c).status = .running ∧ (State.construct c).out = [] ∧
    (∀ a, (State.construct c).mem.read a = 0#8)

/-- R62, R350: memory at the start of a run is zero, then the image from address 0, then the setup writes in order, the
last one that covers an address winning; an image longer than memory or a setup write with a byte outside it refuses the
launch. Every register, the output and the status of the launched state are those of `State.construct`. The state meets
the invariant, whose canonical form of memory is the model's choice (log entry 8). The configuration must be legal
(R5). -/
def Obligations.LaunchBuildsMemory : Prop :=
  ∀ (c : Config) (img : List Byte) (setup : List SetupWrite), c.legal = true →
    (img.length ≤ c.memSize.toNat → (∀ w ∈ setup, w.1 + w.2.length ≤ c.memSize.toNat) →
      ∃ s, launch c img setup = .next s ∧ s.status = .running ∧ s.pc = 0#64 ∧ s.cfg = c ∧ s.Inv ∧
        sameRegs (State.construct c) s ∧ sameSpecials (State.construct c) s ∧ sameRun (State.construct c) s ∧
        ∀ p, s.mem.read p =
          match setup.reverse.find? (fun w => w.1 ≤ p && p < w.1 + w.2.length) with
          | some w => w.2.getD (p - w.1) 0#8
          | none => img.getD p 0#8) ∧
    (c.memSize.toNat < img.length → ∃ r, launch c img setup = .refused r) ∧
    ((∃ w ∈ setup, w.2 ≠ [] ∧ c.memSize.toNat < w.1 + w.2.length) → ∃ r, launch c img setup = .refused r)
end

