-- ==== Sys2Proof/Laws/Decode.lean ====
section
/-!
SUPPORT. The lemmas of the opcode map and of the field layouts: which operation a byte selects, and what each layout
reads.
-/

namespace Sys2Proof

/-- Every operation is listed. -/
theorem Op.mem_all (k : Op) : k ∈ Op.all := by cases k <;> decide

/-- A byte selects only an operation of its own class that the map gives that byte (rule R97). -/
theorem OpMap.lookup_sound {m : OpMap} {op : Byte} {k : Op} (h : m.lookup op = some k) :
    k.cls = classOf op ∧ m.byteOf k = op := by
  have := List.find?_some h
  simpa using this

/-- What the check of one operation's byte says (rule R97). -/
theorem OpMap.okFor_iff (m : OpMap) (k : Op) :
    m.okFor k = true ↔
      classOf (m.byteOf k) = k.cls ∧ m.byteOf k ≠ 0#8 ∧ ∀ j, m.byteOf j = m.byteOf k → j = k := by
  simp only [OpMap.okFor, OpMap.nibbleOk, OpMap.nonzeroOk, OpMap.unsharedOk, Bool.and_eq_true, List.all_eq_true,
    Bool.or_eq_true, decide_eq_true_eq, and_assoc]
  refine and_congr_right fun _ => and_congr_right fun _ => ⟨fun h j hj => ?_, fun h j _ => ?_⟩
  · rcases h j (Op.mem_all j) with h | h
    · exact h
    · exact absurd hj h
  · by_cases hj : m.byteOf j = m.byteOf k
    · exact .inl (h j hj)
    · exact .inr hj

/-- A legal map is legal for every operation (rule R97). -/
theorem OpMap.legal_iff (m : OpMap) : m.legal = true ↔ ∀ k, m.okFor k = true := by
  simp only [OpMap.legal, List.all_eq_true]
  exact ⟨fun h k => h k (Op.mem_all k), fun h k _ => h k⟩

/-- The reference assignment is legal (rules R97 and R98). -/
theorem OpMap.reference_legal : OpMap.reference.legal = true := by decide

@[simp] theorem fieldsZ_eq (i : Instr) (bs : List Byte) : fieldsZ i bs = .ok (i, bs) := rfl

@[simp] theorem fieldsR1_cons (mk : RegNum → Instr) (a : Byte) (bs : List Byte) :
    fieldsR1 mk (a :: bs) = .ok (mk a, bs) := rfl

@[simp] theorem fieldsR2_cons (mk : RegNum → RegNum → Instr) (a b : Byte) (bs : List Byte) :
    fieldsR2 mk (a :: b :: bs) = .ok (mk a b, bs) := rfl

@[simp] theorem fieldsR3_cons (mk : RegNum → RegNum → RegNum → Instr) (a b c : Byte) (bs : List Byte) :
    fieldsR3 mk (a :: b :: c :: bs) = .ok (mk a b c, bs) := rfl

@[simp] theorem fieldsI_cons (mk : RegNum → Word → Instr) (a b0 b1 b2 b3 b4 b5 b6 b7 : Byte) (bs : List Byte) :
    fieldsI mk (a :: b0 :: b1 :: b2 :: b3 :: b4 :: b5 :: b6 :: b7 :: bs) =
      .ok (mk a (beWord b0 b1 b2 b3 b4 b5 b6 b7), bs) := rfl

/-- Decoding never answers an instruction for no bytes. -/
@[simp] theorem decode_nil (m : OpMap) : decode m [] = .error .noByte := rfl

/-- The byte `0x00` is HALT, whatever follows (rule R91). -/
@[simp] theorem decode_zero (m : OpMap) (bs : List Byte) : decode m (0x00#8 :: bs) = .ok (.halt, bs) := rfl

/-- A byte the map does not know is rejected by name, whatever follows (rules R99 and R101). -/
theorem decode_illegal {m : OpMap} {op : Byte} (h0 : op ≠ 0x00#8) (h : m.lookup op = none) (bs : List Byte) :
    decode m (op :: bs) = .error (.illegalOpcode op) := by
  simp [decode, h0, h]

/-- Everything decoding a first byte can do (rules R91, R99 and R101). -/
theorem decode_cons (m : OpMap) (op : Byte) (bs : List Byte) :
    decode m (op :: bs) =
      if op = 0x00#8 then .ok (.halt, bs)
      else
        match m.lookup op with
        | none => .error (.illegalOpcode op)
        | some k => decodeFields k bs := rfl

/-- The byte of an operation that obeys the constraints of rule R97 selects that operation. -/
theorem OpMap.lookup_byteOf {m : OpMap} {k : Op} (h : m.okFor k = true) : m.lookup (m.byteOf k) = some k := by
  obtain ⟨h1, -, h3⟩ := (OpMap.okFor_iff m k).1 h
  unfold OpMap.lookup
  cases hf : Op.all.find? (fun j => decide (j.cls = classOf (m.byteOf k)) && decide (m.byteOf j = m.byteOf k)) with
  | none =>
    have := List.find?_eq_none.1 hf k (Op.mem_all k)
    simp [h1] at this
  | some j =>
    have := List.find?_some hf
    simp at this
    rw [h3 j this.2]

/-! ### What a layout that answers has read (rule R94) -/

theorem fieldsR1_ok {mk bs i rest} (h : fieldsR1 mk bs = .ok (i, rest)) : ∃ a, bs = a :: rest ∧ i = mk a := by
  unfold fieldsR1 at h
  split at h <;> cases h
  exact ⟨_, rfl, rfl⟩

theorem fieldsR2_ok {mk bs i rest} (h : fieldsR2 mk bs = .ok (i, rest)) :
    ∃ a b, bs = a :: b :: rest ∧ i = mk a b := by
  unfold fieldsR2 at h
  split at h <;> cases h
  exact ⟨_, _, rfl, rfl⟩

theorem fieldsR3_ok {mk bs i rest} (h : fieldsR3 mk bs = .ok (i, rest)) :
    ∃ a b c, bs = a :: b :: c :: rest ∧ i = mk a b c := by
  unfold fieldsR3 at h
  split at h <;> cases h
  exact ⟨_, _, _, rfl, rfl⟩

theorem fieldsI_ok {mk bs i rest} (h : fieldsI mk bs = .ok (i, rest)) :
    ∃ a b0 b1 b2 b3 b4 b5 b6 b7, bs = a :: b0 :: b1 :: b2 :: b3 :: b4 :: b5 :: b6 :: b7 :: rest ∧
      i = mk a (beWord b0 b1 b2 b3 b4 b5 b6 b7) := by
  unfold fieldsI at h
  split at h <;> cases h
  exact ⟨_, _, _, _, _, _, _, _, _, rfl, rfl⟩

/-- The bytes of a word put together from bytes are those bytes (rule R73). -/
theorem beBytes_beWord (b0 b1 b2 b3 b4 b5 b6 b7 : Byte) :
    beBytes (beWord b0 b1 b2 b3 b4 b5 b6 b7) = [b0, b1, b2, b3, b4, b5, b6, b7] := by
  simp only [beBytes, beByte, beWord, List.cons.injEq]
  refine ⟨?_, ?_, ?_, ?_, ?_, ?_, ?_, ?_, trivial⟩ <;>
  · apply BitVec.eq_of_getLsbD_eq
    intro i hi
    simp only [BitVec.getLsbD_extractLsb', BitVec.getLsbD_append, hi, decide_true, Bool.true_and]
    split_ifs <;> first | omega | (congr 1; omega)

end Sys2Proof
end

