-- ==== Sys2Proof/Laws/Memory.lean ====
section
/-!
SUPPORT. The laws of memory as data: what a read answers after a write, that every memory operation keeps the
canonical form and the address range, that canonical memories that read the same are equal, and the byte order of
words.
-/

namespace Sys2Proof.Machine

variable (m : Memory)

@[simp] theorem Memory.read_nil (a : Nat) : Memory.read [] a = Memory.unlisted := rfl

/-! ### Reading after writing -/

theorem Memory.read_erase (a p : Nat) :
    (m.erase a).read p = if p = a then Memory.unlisted else m.read p := by
  induction m with
  | nil => simp [Memory.erase, Memory.read]
  | cons c m ih =>
    unfold Memory.erase at ih ⊢
    by_cases hc : c.1 = a <;> by_cases hp : p = a <;> by_cases hcp : c.1 = p <;>
      simp_all [Memory.read]

theorem Memory.read_insert (a p : Nat) (v : Byte) :
    (m.insert a v).read p = if p = a then v else m.read p := by
  induction m with
  | nil =>
    by_cases hp : p = a
    · simp [Memory.insert, Memory.read, hp]
    · simp [Memory.insert, Memory.read, hp, Ne.symm hp]
  | cons c m ih =>
    rw [Memory.insert]
    by_cases hp : p = a
    · subst hp
      rw [if_pos rfl] at ih ⊢
      split_ifs with h1 h2
      · simp [Memory.read]
      · simp [Memory.read]
      · simp [Memory.read, Ne.symm h2, ih]
    · have hp' : a ≠ p := Ne.symm hp
      rw [if_neg hp] at ih ⊢
      split_ifs with h1 h2
      · simp [Memory.read, hp']
      · have h2' : c.1 ≠ p := h2 ▸ hp'
        simp [Memory.read, hp', h2']
      · simp [Memory.read, ih]

/-- Read after write: the byte written reads as written, every other byte as before. -/
theorem Memory.read_write (a p : Nat) (v : Byte) :
    (m.write a v).read p = if p = a then v else m.read p := by
  unfold Memory.write
  split_ifs with h1 h2 h2 <;> simp [Memory.read_erase, Memory.read_insert, h1, h2]

@[simp] theorem Memory.read_write_self (a : Nat) (v : Byte) : (m.write a v).read a = v := by
  simp [Memory.read_write]

theorem Memory.read_write_of_ne (a p : Nat) (v : Byte) (h : p ≠ a) : (m.write a v).read p = m.read p := by
  simp [Memory.read_write, h]

/-- Read after writing a run of bytes. -/
theorem Memory.read_writeBytes (a p : Nat) (bs : List Byte) :
    (m.writeBytes a bs).read p =
      if a ≤ p ∧ p < a + bs.length then bs.getD (p - a) 0#8 else m.read p := by
  induction bs generalizing m a with
  | nil =>
    have h : ¬ (a ≤ p ∧ p < a) := by omega
    simp [Memory.writeBytes, h]
  | cons b bs ih =>
    rw [Memory.writeBytes, ih, Memory.read_write, List.length_cons]
    by_cases h1 : p = a
    · subst h1
      have h2 : ¬ (p + 1 ≤ p ∧ p < p + 1 + bs.length) := by omega
      have h3 : p ≤ p ∧ p < p + (bs.length + 1) := by omega
      simp [h3]
    · by_cases h2 : a + 1 ≤ p ∧ p < a + 1 + bs.length
      · have h3 : a ≤ p ∧ p < a + (bs.length + 1) := by omega
        obtain ⟨k, rfl⟩ : ∃ k, p = a + 1 + k := ⟨p - (a + 1), by omega⟩
        have e1 : a + 1 + k - (a + 1) = k := by omega
        have e2 : a + 1 + k - a = k + 1 := by omega
        rw [if_pos h2, if_pos h3, e1, e2, List.getD_cons_succ]
      · have h3 : ¬ (a ≤ p ∧ p < a + (bs.length + 1)) := by omega
        rw [if_neg h2, if_neg h3, if_neg h1]

/-- Bytes outside a run that is written read as before. -/
theorem Memory.read_writeBytes_outside (a p : Nat) (bs : List Byte) (h : p < a ∨ a + bs.length ≤ p) :
    (m.writeBytes a bs).read p = m.read p := by
  have h' : ¬ (a ≤ p ∧ p < a + bs.length) := by omega
  simp [Memory.read_writeBytes, h']

@[simp] theorem beBytes_length (v : Word) : (beBytes v).length = 8 := rfl

/-- Bytes outside a word that is written read as before. -/
theorem Memory.read_writeWord_outside (a p : Nat) (v : Word) (h : p < a ∨ a + 8 ≤ p) :
    (m.writeWord a v).read p = m.read p :=
  m.read_writeBytes_outside a p (beBytes v) h

/-- A byte of a word that was written is the word's byte, most significant first (rules R66 and R73). -/
theorem Memory.read_writeWord_inside (a i : Nat) (v : Word) (h : i < 8) :
    (m.writeWord a v).read (a + i) = beByte v i := by
  have h' : a ≤ a + i ∧ a + i < a + (beBytes v).length := by simp; omega
  rw [Memory.writeWord, Memory.read_writeBytes, if_pos h', Nat.add_sub_cancel_left]
  rcases i with _ | _ | _ | _ | _ | _ | _ | _ | i <;> first | rfl | omega

/-- The bytes of a word, put together again, are the word. -/
theorem beWord_beByte (v : Word) :
    beWord (beByte v 0) (beByte v 1) (beByte v 2) (beByte v 3)
      (beByte v 4) (beByte v 5) (beByte v 6) (beByte v 7) = v := by
  apply BitVec.eq_of_getLsbD_eq
  intro i hi
  unfold beWord beByte
  simp only [BitVec.getLsbD_append, BitVec.getLsbD_extractLsb']
  split_ifs with h0 h1 h2 h3 h4 h5 h6
  all_goals first
    | (have : i - 8 - 8 - 8 - 8 - 8 - 8 - 8 < 8 := by omega
       simp only [this, decide_true, Bool.true_and]; congr 1; omega)
    | (simp_all only [decide_true, Bool.true_and]; congr 1; omega)

/-- Read after write of a word (rules R64 and R66). -/
@[simp] theorem Memory.readWord_writeWord (a : Nat) (v : Word) : (m.writeWord a v).readWord a = v := by
  have h0 := m.read_writeWord_inside a 0 v (by omega)
  rw [Nat.add_zero] at h0
  rw [Memory.readWord, h0, m.read_writeWord_inside a 1 v (by omega), m.read_writeWord_inside a 2 v (by omega),
    m.read_writeWord_inside a 3 v (by omega), m.read_writeWord_inside a 4 v (by omega),
    m.read_writeWord_inside a 5 v (by omega), m.read_writeWord_inside a 6 v (by omega),
    m.read_writeWord_inside a 7 v (by omega), beWord_beByte]

/-- A word that a write does not touch reads as before. -/
theorem Memory.readWord_congr {m n : Memory} {a : Nat} (h : ∀ i, i < 8 → m.read (a + i) = n.read (a + i)) :
    m.readWord a = n.readWord a := by
  have h0 := h 0 (by omega)
  rw [Nat.add_zero] at h0
  simp only [Memory.readWord, h0, h 1 (by omega), h 2 (by omega), h 3 (by omega), h 4 (by omega), h 5 (by omega),
    h 6 (by omega), h 7 (by omega)]

/-! ### The canonical form -/

theorem Memory.nil_wf : Memory.wf [] := by simp [Memory.wf]

theorem Memory.erase_wf (a : Nat) (h : m.wf) : (m.erase a).wf :=
  ⟨h.1.filter _, fun c hc => h.2 c (List.mem_filter.1 hc).1⟩

theorem Memory.mem_insert {a : Nat} {v : Byte} {c : Host.Cell} (h : c ∈ m.insert a v) : c = (a, v) ∨ c ∈ m := by
  induction m with
  | nil => simp_all [Memory.insert]
  | cons d m ih =>
    rw [Memory.insert] at h
    split_ifs at h with h1 h2
    · simpa using h
    · simp only [List.mem_cons] at h ⊢; tauto
    · simp only [List.mem_cons] at h ⊢
      rcases h with rfl | h
      · simp
      · rcases ih h with h | h <;> tauto

theorem Memory.insert_wf (a : Nat) (v : Byte) (hv : v ≠ Memory.unlisted) (h : m.wf) : (m.insert a v).wf := by
  induction m with
  | nil => simp [Memory.insert, Memory.wf, hv]
  | cons c m ih =>
    obtain ⟨hp, hn⟩ := h
    rw [List.pairwise_cons] at hp
    have hm : Memory.wf m := ⟨hp.2, fun d hd => hn d (List.mem_cons_of_mem _ hd)⟩
    rw [Memory.insert]
    split_ifs with h1 h2
    · refine ⟨List.pairwise_cons.2 ⟨?_, List.pairwise_cons.2 hp⟩, ?_⟩
      · intro d hd
        rcases List.mem_cons.1 hd with rfl | hd
        · exact h1
        · exact Nat.lt_trans h1 (hp.1 d hd)
      · intro d hd
        rcases List.mem_cons.1 hd with rfl | hd
        · exact hv
        · exact hn d hd
    · refine ⟨List.pairwise_cons.2 ⟨fun d hd => by simpa [h2] using hp.1 d hd, hp.2⟩, ?_⟩
      intro d hd
      rcases List.mem_cons.1 hd with rfl | hd
      · exact hv
      · exact hm.2 d hd
    · refine ⟨List.pairwise_cons.2 ⟨?_, (ih hm).1⟩, ?_⟩
      · intro d hd
        rcases Memory.mem_insert m hd with rfl | hd
        · show c.1 < a; omega
        · exact hp.1 d hd
      · intro d hd
        rcases List.mem_cons.1 hd with rfl | hd
        · exact hn d List.mem_cons_self
        · exact (ih hm).2 d hd

/-- A write keeps the canonical form. -/
theorem Memory.write_wf (a : Nat) (v : Byte) (h : m.wf) : (m.write a v).wf := by
  unfold Memory.write
  split_ifs with hv
  · exact m.erase_wf a h
  · exact m.insert_wf a v hv h

/-- Writing a run of bytes keeps the canonical form. -/
theorem Memory.writeBytes_wf (a : Nat) (bs : List Byte) (h : m.wf) : (m.writeBytes a bs).wf := by
  induction bs generalizing m a with
  | nil => exact h
  | cons b bs ih => exact ih (m.write a b) (a + 1) (m.write_wf a b h)

/-- Writing a word keeps the canonical form. -/
theorem Memory.writeWord_wf (a : Nat) (v : Word) (h : m.wf) : (m.writeWord a v).wf :=
  m.writeBytes_wf a _ h

/-- A write lists no address but its own and those listed before. -/
theorem Memory.mem_write {a : Nat} {v : Byte} {c : Host.Cell} (h : c ∈ m.write a v) : c.1 = a ∨ c ∈ m := by
  unfold Memory.write at h
  split_ifs at h
  · exact .inr (List.mem_filter.1 h).1
  · rcases Memory.mem_insert m h with rfl | h
    · exact .inl rfl
    · exact .inr h

/-- A run of bytes written below a bound lists only addresses below it, if only such were listed. -/
theorem Memory.writeBytes_inside (a n : Nat) (bs : List Byte) (ha : a + bs.length ≤ n)
    (h : ∀ c ∈ m, c.1 < n) : ∀ c ∈ m.writeBytes a bs, c.1 < n := by
  induction bs generalizing m a with
  | nil => exact h
  | cons b bs ih =>
    rw [List.length_cons] at ha
    refine ih (m.write a b) (a + 1) (by omega) ?_
    intro c hc
    rcases m.mem_write hc with hc | hc
    · omega
    · exact h c hc

/-! ### Canonical memories that read the same are equal -/

theorem Memory.read_of_forall_lt {m : Memory} {a : Nat} (h : ∀ c ∈ m, a < c.1) : m.read a = Memory.unlisted := by
  induction m with
  | nil => rfl
  | cons c m ih =>
    have hc : c.1 ≠ a := by have := h c List.mem_cons_self; omega
    simp only [Memory.read, hc, if_false]
    exact ih fun d hd => h d (List.mem_cons_of_mem _ hd)

/-- Memory is determined by what it reads as: equal memories are equal data. -/
theorem Memory.ext_of_wf {m n : Memory} (hm : m.wf) (hn : n.wf) (h : ∀ a, m.read a = n.read a) : m = n := by
  induction m generalizing n with
  | nil =>
    cases n with
    | nil => rfl
    | cons d n =>
      have := h d.1
      simp only [Memory.read, if_true] at this
      exact absurd this.symm (hn.2 d List.mem_cons_self)
  | cons c m ih =>
    obtain ⟨hmp, hmn⟩ := hm
    rw [List.pairwise_cons] at hmp
    cases n with
    | nil =>
      have := h c.1
      simp only [Memory.read, if_true] at this
      exact absurd this (hmn c List.mem_cons_self)
    | cons d n =>
      obtain ⟨hnp, hnn⟩ := hn
      rw [List.pairwise_cons] at hnp
      have hcd : c.1 = d.1 := by
        rcases Nat.lt_trichotomy c.1 d.1 with hlt | heq | hgt
        · exfalso
          have h1 : Memory.read (d :: n) c.1 = Memory.unlisted := Memory.read_of_forall_lt (by
            intro e he
            rcases List.mem_cons.1 he with rfl | he
            · exact hlt
            · exact Nat.lt_trans hlt (hnp.1 e he))
          have h2 := h c.1
          rw [h1] at h2
          simp only [Memory.read, if_true] at h2
          exact hmn c List.mem_cons_self h2
        · exact heq
        · exfalso
          have h1 : Memory.read (c :: m) d.1 = Memory.unlisted := Memory.read_of_forall_lt (by
            intro e he
            rcases List.mem_cons.1 he with rfl | he
            · exact hgt
            · exact Nat.lt_trans hgt (hmp.1 e he))
          have h2 := h d.1
          rw [h1] at h2
          simp only [Memory.read, if_true] at h2
          exact hnn d List.mem_cons_self h2.symm
      have hv : c.2 = d.2 := by
        have := h c.1
        simpa [Memory.read, hcd] using this
      have hcd' : c = d := Prod.ext hcd hv
      subst hcd'
      congr 1
      refine ih ⟨hmp.2, fun e he => hmn e (List.mem_cons_of_mem _ he)⟩
        ⟨hnp.2, fun e he => hnn e (List.mem_cons_of_mem _ he)⟩ ?_
      intro a
      by_cases ha : c.1 = a
      · subst ha
        rw [Memory.read_of_forall_lt hmp.1, Memory.read_of_forall_lt hnp.1]
      · have := h a
        simpa [Memory.read, ha] using this

/-- A word written twice at one address: the second write is what remains (the last store of rule R225). -/
theorem Memory.writeWord_writeWord (a : Nat) (v w : Word) (h : m.wf) :
    (m.writeWord a v).writeWord a w = m.writeWord a w := by
  refine Memory.ext_of_wf (Memory.writeWord_wf _ a w (m.writeWord_wf a v h)) (m.writeWord_wf a w h) fun p => ?_
  by_cases hp : p < a ∨ a + 8 ≤ p
  · rw [Memory.read_writeWord_outside _ _ _ _ hp, Memory.read_writeWord_outside _ _ _ _ hp,
      Memory.read_writeWord_outside _ _ _ _ hp]
  · obtain ⟨i, rfl⟩ : ∃ i, p = a + i := ⟨p - a, by omega⟩
    rw [Memory.read_writeWord_inside _ _ _ _ (by omega), Memory.read_writeWord_inside _ _ _ _ (by omega)]

end Sys2Proof.Machine
end

