-- ==== Sys2Proof/Laws/State.lean ====
section
/-!
SUPPORT. The small lemmas of the state: one for each field under each update, true by `rfl`, so that no proof unfolds
a record update; and what reading a register gives after each update.
-/

namespace Sys2Proof.Machine

variable (s : State)

@[simp] theorem setReg_cfg (r : RegNum) (v : Word) : (s.setReg r v).cfg = s.cfg := rfl
@[simp] theorem setReg_x (r : RegNum) (v : Word) : (s.setReg r v).x = s.x.set r.toNat v r.isLt := rfl
@[simp] theorem setReg_pc (r : RegNum) (v : Word) : (s.setReg r v).pc = s.pc := rfl
@[simp] theorem setReg_sp (r : RegNum) (v : Word) : (s.setReg r v).sp = s.sp := rfl
@[simp] theorem setReg_ip (r : RegNum) (v : Word) : (s.setReg r v).ip = s.ip := rfl
@[simp] theorem setReg_cr (r : RegNum) (v : Word) : (s.setReg r v).cr = s.cr := rfl
@[simp] theorem setReg_ie (r : RegNum) (v : Word) : (s.setReg r v).ie = s.ie := rfl
@[simp] theorem setReg_mem (r : RegNum) (v : Word) : (s.setReg r v).mem = s.mem := rfl
@[simp] theorem setReg_out (r : RegNum) (v : Word) : (s.setReg r v).out = s.out := rfl
@[simp] theorem setReg_status (r : RegNum) (v : Word) : (s.setReg r v).status = s.status := rfl

@[simp] theorem setPc_cfg (v : Word) : (s.setPc v).cfg = s.cfg := rfl
@[simp] theorem setPc_x (v : Word) : (s.setPc v).x = s.x := rfl
@[simp] theorem setPc_pc (v : Word) : (s.setPc v).pc = v := rfl
@[simp] theorem setPc_sp (v : Word) : (s.setPc v).sp = s.sp := rfl
@[simp] theorem setPc_ip (v : Word) : (s.setPc v).ip = s.ip := rfl
@[simp] theorem setPc_cr (v : Word) : (s.setPc v).cr = s.cr := rfl
@[simp] theorem setPc_ie (v : Word) : (s.setPc v).ie = s.ie := rfl
@[simp] theorem setPc_mem (v : Word) : (s.setPc v).mem = s.mem := rfl
@[simp] theorem setPc_out (v : Word) : (s.setPc v).out = s.out := rfl
@[simp] theorem setPc_status (v : Word) : (s.setPc v).status = s.status := rfl
@[simp] theorem setPc_reg (v : Word) (q : RegNum) : (s.setPc v).reg q = s.reg q := rfl

@[simp] theorem setSp_cfg (v : Word) : (s.setSp v).cfg = s.cfg := rfl
@[simp] theorem setSp_x (v : Word) : (s.setSp v).x = s.x := rfl
@[simp] theorem setSp_pc (v : Word) : (s.setSp v).pc = s.pc := rfl
@[simp] theorem setSp_sp (v : Word) : (s.setSp v).sp = v := rfl
@[simp] theorem setSp_ip (v : Word) : (s.setSp v).ip = s.ip := rfl
@[simp] theorem setSp_cr (v : Word) : (s.setSp v).cr = s.cr := rfl
@[simp] theorem setSp_ie (v : Word) : (s.setSp v).ie = s.ie := rfl
@[simp] theorem setSp_mem (v : Word) : (s.setSp v).mem = s.mem := rfl
@[simp] theorem setSp_out (v : Word) : (s.setSp v).out = s.out := rfl
@[simp] theorem setSp_status (v : Word) : (s.setSp v).status = s.status := rfl
@[simp] theorem setSp_reg (v : Word) (q : RegNum) : (s.setSp v).reg q = s.reg q := rfl

@[simp] theorem setIp_cfg (v : Word) : (s.setIp v).cfg = s.cfg := rfl
@[simp] theorem setIp_x (v : Word) : (s.setIp v).x = s.x := rfl
@[simp] theorem setIp_pc (v : Word) : (s.setIp v).pc = s.pc := rfl
@[simp] theorem setIp_sp (v : Word) : (s.setIp v).sp = s.sp := rfl
@[simp] theorem setIp_ip (v : Word) : (s.setIp v).ip = v := rfl
@[simp] theorem setIp_cr (v : Word) : (s.setIp v).cr = s.cr := rfl
@[simp] theorem setIp_ie (v : Word) : (s.setIp v).ie = s.ie := rfl
@[simp] theorem setIp_mem (v : Word) : (s.setIp v).mem = s.mem := rfl
@[simp] theorem setIp_out (v : Word) : (s.setIp v).out = s.out := rfl
@[simp] theorem setIp_status (v : Word) : (s.setIp v).status = s.status := rfl
@[simp] theorem setIp_reg (v : Word) (q : RegNum) : (s.setIp v).reg q = s.reg q := rfl

@[simp] theorem setCr_cfg (v : Word) : (s.setCr v).cfg = s.cfg := rfl
@[simp] theorem setCr_x (v : Word) : (s.setCr v).x = s.x := rfl
@[simp] theorem setCr_pc (v : Word) : (s.setCr v).pc = s.pc := rfl
@[simp] theorem setCr_sp (v : Word) : (s.setCr v).sp = s.sp := rfl
@[simp] theorem setCr_ip (v : Word) : (s.setCr v).ip = s.ip := rfl
@[simp] theorem setCr_cr (v : Word) : (s.setCr v).cr = v := rfl
@[simp] theorem setCr_ie (v : Word) : (s.setCr v).ie = s.ie := rfl
@[simp] theorem setCr_mem (v : Word) : (s.setCr v).mem = s.mem := rfl
@[simp] theorem setCr_out (v : Word) : (s.setCr v).out = s.out := rfl
@[simp] theorem setCr_status (v : Word) : (s.setCr v).status = s.status := rfl
@[simp] theorem setCr_reg (v : Word) (q : RegNum) : (s.setCr v).reg q = s.reg q := rfl

@[simp] theorem setIe_cfg (b : Bool) : (s.setIe b).cfg = s.cfg := rfl
@[simp] theorem setIe_x (b : Bool) : (s.setIe b).x = s.x := rfl
@[simp] theorem setIe_pc (b : Bool) : (s.setIe b).pc = s.pc := rfl
@[simp] theorem setIe_sp (b : Bool) : (s.setIe b).sp = s.sp := rfl
@[simp] theorem setIe_ip (b : Bool) : (s.setIe b).ip = s.ip := rfl
@[simp] theorem setIe_cr (b : Bool) : (s.setIe b).cr = s.cr := rfl
@[simp] theorem setIe_ie (b : Bool) : (s.setIe b).ie = b := rfl
@[simp] theorem setIe_mem (b : Bool) : (s.setIe b).mem = s.mem := rfl
@[simp] theorem setIe_out (b : Bool) : (s.setIe b).out = s.out := rfl
@[simp] theorem setIe_status (b : Bool) : (s.setIe b).status = s.status := rfl
@[simp] theorem setIe_reg (b : Bool) (q : RegNum) : (s.setIe b).reg q = s.reg q := rfl

@[simp] theorem setMem_cfg (m : Memory) : (s.setMem m).cfg = s.cfg := rfl
@[simp] theorem setMem_x (m : Memory) : (s.setMem m).x = s.x := rfl
@[simp] theorem setMem_pc (m : Memory) : (s.setMem m).pc = s.pc := rfl
@[simp] theorem setMem_sp (m : Memory) : (s.setMem m).sp = s.sp := rfl
@[simp] theorem setMem_ip (m : Memory) : (s.setMem m).ip = s.ip := rfl
@[simp] theorem setMem_cr (m : Memory) : (s.setMem m).cr = s.cr := rfl
@[simp] theorem setMem_ie (m : Memory) : (s.setMem m).ie = s.ie := rfl
@[simp] theorem setMem_mem (m : Memory) : (s.setMem m).mem = m := rfl
@[simp] theorem setMem_out (m : Memory) : (s.setMem m).out = s.out := rfl
@[simp] theorem setMem_status (m : Memory) : (s.setMem m).status = s.status := rfl
@[simp] theorem setMem_reg (m : Memory) (q : RegNum) : (s.setMem m).reg q = s.reg q := rfl

@[simp] theorem setStatus_cfg (st : Status) : (s.setStatus st).cfg = s.cfg := rfl
@[simp] theorem setStatus_x (st : Status) : (s.setStatus st).x = s.x := rfl
@[simp] theorem setStatus_pc (st : Status) : (s.setStatus st).pc = s.pc := rfl
@[simp] theorem setStatus_sp (st : Status) : (s.setStatus st).sp = s.sp := rfl
@[simp] theorem setStatus_ip (st : Status) : (s.setStatus st).ip = s.ip := rfl
@[simp] theorem setStatus_cr (st : Status) : (s.setStatus st).cr = s.cr := rfl
@[simp] theorem setStatus_ie (st : Status) : (s.setStatus st).ie = s.ie := rfl
@[simp] theorem setStatus_mem (st : Status) : (s.setStatus st).mem = s.mem := rfl
@[simp] theorem setStatus_out (st : Status) : (s.setStatus st).out = s.out := rfl
@[simp] theorem setStatus_status (st : Status) : (s.setStatus st).status = st := rfl
@[simp] theorem setStatus_reg (st : Status) (q : RegNum) : (s.setStatus st).reg q = s.reg q := rfl

@[simp] theorem emit_cfg (b : Byte) : (s.emit b).cfg = s.cfg := rfl
@[simp] theorem emit_x (b : Byte) : (s.emit b).x = s.x := rfl
@[simp] theorem emit_pc (b : Byte) : (s.emit b).pc = s.pc := rfl
@[simp] theorem emit_sp (b : Byte) : (s.emit b).sp = s.sp := rfl
@[simp] theorem emit_ip (b : Byte) : (s.emit b).ip = s.ip := rfl
@[simp] theorem emit_cr (b : Byte) : (s.emit b).cr = s.cr := rfl
@[simp] theorem emit_ie (b : Byte) : (s.emit b).ie = s.ie := rfl
@[simp] theorem emit_mem (b : Byte) : (s.emit b).mem = s.mem := rfl
@[simp] theorem emit_out (b : Byte) : (s.emit b).out = s.out ++ [b] := rfl
@[simp] theorem emit_status (b : Byte) : (s.emit b).status = s.status := rfl
@[simp] theorem emit_reg (b : Byte) (q : RegNum) : (s.emit b).reg q = s.reg q := rfl

@[simp] theorem takeFault_cfg (c : FaultCause) : (s.takeFault c).cfg = s.cfg := rfl
@[simp] theorem takeFault_x (c : FaultCause) : (s.takeFault c).x = s.x := rfl
@[simp] theorem takeFault_pc (c : FaultCause) : (s.takeFault c).pc = s.pc := rfl
@[simp] theorem takeFault_sp (c : FaultCause) : (s.takeFault c).sp = s.sp := rfl
@[simp] theorem takeFault_ip (c : FaultCause) : (s.takeFault c).ip = s.ip := rfl
@[simp] theorem takeFault_cr (c : FaultCause) : (s.takeFault c).cr = s.cr := rfl
@[simp] theorem takeFault_ie (c : FaultCause) : (s.takeFault c).ie = s.ie := rfl
@[simp] theorem takeFault_mem (c : FaultCause) : (s.takeFault c).mem = s.mem := rfl
@[simp] theorem takeFault_out (c : FaultCause) : (s.takeFault c).out = s.out := rfl
@[simp] theorem takeFault_status (c : FaultCause) : (s.takeFault c).status = .faulted ⟨c, s.pc⟩ := rfl
@[simp] theorem takeFault_reg (c : FaultCause) (q : RegNum) : (s.takeFault c).reg q = s.reg q := rfl

@[simp] theorem updateCr_cfg (f : Word) : (s.updateCr f).cfg = s.cfg := rfl
@[simp] theorem updateCr_x (f : Word) : (s.updateCr f).x = s.x := rfl
@[simp] theorem updateCr_pc (f : Word) : (s.updateCr f).pc = s.pc := rfl
@[simp] theorem updateCr_sp (f : Word) : (s.updateCr f).sp = s.sp := rfl
@[simp] theorem updateCr_ip (f : Word) : (s.updateCr f).ip = s.ip := rfl
@[simp] theorem updateCr_cr (f : Word) : (s.updateCr f).cr = updatedCr s.cfg.cmpCrUpdate s.cr f := rfl
@[simp] theorem updateCr_ie (f : Word) : (s.updateCr f).ie = s.ie := rfl
@[simp] theorem updateCr_mem (f : Word) : (s.updateCr f).mem = s.mem := rfl
@[simp] theorem updateCr_out (f : Word) : (s.updateCr f).out = s.out := rfl
@[simp] theorem updateCr_status (f : Word) : (s.updateCr f).status = s.status := rfl
@[simp] theorem updateCr_reg (f : Word) (q : RegNum) : (s.updateCr f).reg q = s.reg q := rfl

/-- Reading a register after a write to a register (rule R22: no aliases). -/
theorem setReg_reg (r q : RegNum) (v : Word) : (s.setReg r v).reg q = if q = r then v else s.reg q := by
  simp only [State.reg, setReg_x, Vector.getElem_set]
  by_cases h : q = r
  · subst h; simp
  · have hn : r.toNat ≠ q.toNat := fun e => h (BitVec.eq_of_toNat_eq e.symm)
    simp [hn, h]

@[simp] theorem setReg_reg_self (r : RegNum) (v : Word) : (s.setReg r v).reg r = v := by
  simp [setReg_reg]

theorem setReg_reg_of_ne (r q : RegNum) (v : Word) (h : q ≠ r) : (s.setReg r v).reg q = s.reg q := by
  simp [setReg_reg, h]

/-- Every register of the reset state reads 0 where the configuration resets the registers to zero (rule R46). -/
theorem construct_reg_zero (c : Config) (h : c.gprReset = .zero) (r : RegNum) : (State.construct c).reg r = 0#64 := by
  simp [State.reg, State.construct, resetRegisters, h]

/-- Two states with equal fields are equal. -/
theorem State.ext_fields {s t : State} (hc : s.cfg = t.cfg) (hx : s.x = t.x) (hp : s.pc = t.pc) (hs : s.sp = t.sp)
    (hi : s.ip = t.ip) (hr : s.cr = t.cr) (he : s.ie = t.ie) (hm : s.mem = t.mem) (ho : s.out = t.out)
    (hst : s.status = t.status) : s = t := by
  cases s; cases t; simp_all

/-- Two register files that read the same everywhere are equal. -/
theorem regs_ext {s t : State} (h : ∀ r, s.reg r = t.reg r) : s.x = t.x := by
  apply Vector.ext
  intro i hi
  have := h (BitVec.ofNat 8 i)
  have hm : i % 256 = i := Nat.mod_eq_of_lt hi
  simpa [State.reg, hm] using this

end Sys2Proof.Machine
end

