-- ==== Sys2Proof/Laws/Ops.lean ====
section
/-!
SUPPORT. One lemma for each shared operation, saying once everything it can do: what it answers and when. The
provers cite these instead of unfolding an operation.
-/

namespace Sys2Proof.Machine

variable (s t : State)

/-! ### Bounds -/

/-- The bounds check looks at the configuration alone. -/
theorem fits_congr {s t : State} (h : t.cfg = s.cfg) (a : Word) (w : Width) : t.fits a w = s.fits a w := by
  simp [State.fits, h]

@[simp] theorem fits_setPc (v a : Word) (w : Width) : (s.setPc v).fits a w = s.fits a w := rfl

@[simp] theorem fits_setSp (v a : Word) (w : Width) : (s.setSp v).fits a w = s.fits a w := rfl

@[simp] theorem fits_setMem (m : Memory) (a : Word) (w : Width) : (s.setMem m).fits a w = s.fits a w := rfl

@[simp] theorem vectorAddr_setPc (v : Word) (n : Byte) : (s.setPc v).vectorAddr n = s.vectorAddr n := rfl

/-- `check` succeeds exactly when the access fits. -/
theorem check_of_fits {a : Word} {w : Width} (k : AccessKind) (h : s.fits a w = true) : s.check a w k = .ok () := by
  simp [State.check, h]

/-- `check` raises `AddressFault` exactly when the access does not fit. -/
theorem check_of_not_fits {a : Word} {w : Width} (k : AccessKind) (h : s.fits a w = false) :
    s.check a w k = .error (.addressFault a w k) := by
  simp [State.check, h]

/-- A byte access fits exactly below the memory size. -/
theorem fits_byte (a : Word) : s.fits a .byte = true ↔ a.toNat < s.cfg.memSize.toNat := by
  simp [State.fits, Width.bytes]

/-- A word access fits exactly when all its eight bytes lie below the memory size. -/
theorem fits_word (a : Word) : s.fits a .word = true ↔ a.toNat + 8 ≤ s.cfg.memSize.toNat :=
  decide_eq_true_iff

/-! ### The accessors: each is one `if` -/

theorem fetchByte_eq (a : Word) :
    s.fetchByte a = if s.fits a .byte then .ok (s.mem.read a.toNat) else .error (.addressFault a .byte .fetch) := by
  unfold State.fetchByte State.check
  cases s.fits a .byte <;> rfl

theorem loadByte_eq (a : Word) :
    s.loadByte a = if s.fits a .byte then .ok (s.mem.read a.toNat) else .error (.addressFault a .byte .read) := by
  unfold State.loadByte State.check
  cases s.fits a .byte <;> rfl

theorem loadWord_eq (a : Word) :
    s.loadWord a = if s.fits a .word then .ok (s.mem.readWord a.toNat) else .error (.addressFault a .word .read) := by
  unfold State.loadWord State.check
  cases s.fits a .word <;> rfl

theorem storeByte_eq (a : Word) (v : Byte) :
    s.storeByte a v =
      if s.fits a .byte then .ok (s.setMem (s.mem.write a.toNat v)) else .error (.addressFault a .byte .write) := by
  unfold State.storeByte State.check
  cases s.fits a .byte <;> rfl

theorem storeWord_eq (a v : Word) :
    s.storeWord a v =
      if s.fits a .word then .ok (s.setMem (s.mem.writeWord a.toNat v)) else .error (.addressFault a .word .write) := by
  unfold State.storeWord State.check
  cases s.fits a .word <;> rfl

/-! ### The stack -/

/-- Everything a push can do (rule R74). -/
theorem push_eq (v : Word) :
    s.push v =
      if s.fits (s.sp - 8#64) .word then
        .ok ((s.setMem (s.mem.writeWord (s.sp - 8#64).toNat v)).setSp (s.sp - 8#64))
      else .error (.addressFault (s.sp - 8#64) .word .write) := by
  unfold State.push
  rw [storeWord_eq]
  cases s.fits (s.sp - 8#64) .word <;> rfl

/-- Everything a pop can do (rule R75). -/
theorem pop_eq :
    s.pop =
      if s.fits s.sp .word then .ok (s.mem.readWord s.sp.toNat, s.setSp (s.sp + 8#64))
      else .error (.addressFault s.sp .word .read) := by
  unfold State.pop
  rw [loadWord_eq]
  cases s.fits s.sp .word <;> rfl

/-! ### The interrupt controller -/

/-- Everything the system call can do (rules R302 to R304). -/
theorem systemCall_cases {t : State} (h : s.systemCall = .ok t) :
    s.reg 0#8 = 1#64 ∧ t = s.emit (lowByte (s.reg 1#8)) := by
  unfold State.systemCall at h
  split_ifs at h with h1
  exact ⟨h1, (Except.ok.inj h).symm⟩

/-- Everything entering an interrupt can do (rule R305). -/
theorem enterInterrupt_eq (n : Byte) :
    s.enterInterrupt n =
      if s.fits (s.sp - 8#64) .word then
        if s.fits (s.vectorAddr n) .word then
          .ok (((s.setMem (s.mem.writeWord (s.sp - 8#64).toNat s.pc)).setSp (s.sp - 8#64)).setPc
            ((s.mem.writeWord (s.sp - 8#64).toNat s.pc).readWord (s.vectorAddr n).toNat))
        else .error (.addressFault (s.vectorAddr n) .word .read)
      else .error (.addressFault (s.sp - 8#64) .word .write) := by
  unfold State.enterInterrupt
  rw [push_eq]
  cases h1 : s.fits (s.sp - 8#64) .word
  · rfl
  · show (State.loadWord _ _ >>= _) = _
    rw [loadWord_eq]
    have hv : ((s.setMem (s.mem.writeWord (s.sp - 8#64).toNat s.pc)).setSp (s.sp - 8#64)).vectorAddr n
        = s.vectorAddr n := rfl
    rw [hv]
    simp only [fits_setMem, fits_setSp, if_true]
    by_cases h2 : s.fits (s.vectorAddr n) .word = true
    · simp only [h2, if_true]; rfl
    · simp only [h2]; rfl

/-- Everything a return can do (rules R122 and R308). -/
theorem returnFrom_eq :
    s.returnFrom =
      if s.fits s.sp .word then .ok ((s.setSp (s.sp + 8#64)).setPc (s.mem.readWord s.sp.toNat))
      else .error (.addressFault s.sp .word .read) := by
  unfold State.returnFrom
  rw [pop_eq]
  cases s.fits s.sp .word <;> rfl

/-! ### Faults and the instruction's frame -/

@[simp] theorem settle_ok : settle s (.ok t) = .next t := rfl

@[simp] theorem settle_error (c : FaultCause) : settle s (.error c) = .next (s.takeFault c) := rfl

/-- An instruction's rule ends in the state it computed, or in the state before it with the fault taken. -/
theorem runRule_cases {k : OpClass} {s : State} {rule : State → Except FaultCause State} {o}
    (h : runRule k s rule = o) :
    (∃ t, rule (s.setPc (s.pc + BitVec.ofNat 64 k.width)) = .ok t ∧ o = .next t) ∨
      ∃ c, rule (s.setPc (s.pc + BitVec.ofNat 64 k.width)) = .error c ∧ o = .next (s.takeFault c) := by
  unfold runRule settle at h
  split at h
  · exact .inl ⟨_, ‹_›, h.symm⟩
  · exact .inr ⟨_, ‹_›, h.symm⟩

/-! ### The canonical form -/

/-- A stored word inside memory lists only addresses inside memory. -/
theorem writeWord_inside {m : Memory} {n a : Nat} (v : Word) (ha : a + 8 ≤ n) (h : ∀ c ∈ m, c.1 < n) :
    ∀ c ∈ m.writeWord a v, c.1 < n :=
  m.writeBytes_inside a n (beBytes v) ha h

/-- The memory of the reset state has the canonical form. -/
theorem reset_mem_wf : State.reset.mem.wf := Memory.nil_wf

/-! ### Fetching -/

/-- One byte of the fetch window: there if it can be fetched, and then the rest follows (rules R68 and R70). -/
theorem fetchBytes_succ (a : Word) (n : Nat) :
    s.fetchBytes a (n + 1) =
      if s.fits a .byte then s.mem.read a.toNat :: s.fetchBytes (a + 1#64) n else [] := by
  rw [State.fetchBytes, fetchByte_eq]
  cases s.fits a .byte <;> rfl

/-- Byte `k` of the fetch window is the byte of memory at that offset. -/
theorem fetchBytes_getElem? (a : Word) (n k : Nat) (hk : k < n) (hb : a.toNat + k < s.cfg.memSize.toNat) :
    (s.fetchBytes a n)[k]? = some (s.mem.read (a.toNat + k)) := by
  induction n generalizing a k with
  | zero => omega
  | succ n ih =>
    have hm := s.cfg.memSize.isLt
    rw [fetchBytes_succ, if_pos ((fits_byte s a).2 (by omega))]
    cases k with
    | zero => simp
    | succ k =>
      have : (a + 1#64).toNat = a.toNat + 1 := by rw [BitVec.toNat_add]; simp; omega
      rw [List.getElem?_cons_succ, ih _ _ (by omega) (by rw [this]; omega), this]
      congr 2; omega

/-- The fetch window ends at the memory size. -/
theorem fetchBytes_length (a : Word) (n : Nat) :
    (s.fetchBytes a n).length = min n (s.cfg.memSize.toNat - a.toNat) := by
  induction n generalizing a with
  | zero => simp [State.fetchBytes]
  | succ n ih =>
    have hm := s.cfg.memSize.isLt
    rw [fetchBytes_succ]
    by_cases h1 : a.toNat < s.cfg.memSize.toNat
    · have : (a + 1#64).toNat = a.toNat + 1 := by rw [BitVec.toNat_add]; simp; omega
      rw [if_pos ((fits_byte s a).2 h1), List.length_cons, ih, this]; omega
    · rw [if_neg (mt (fits_byte s a).1 h1)]; simp; omega

end Sys2Proof.Machine
end

