-- ==== Sys2Proof/Laws/PerInstr.lean ====
section
/-!
SUPPORT. A statement about every instruction, made per instruction: the encoding has as many bytes as the class of
the instruction's operation is wide (rules R92 and R94); HALT has one (rule R91).
-/

/-- The encoding of an instruction has the width of its class, under every opcode map (rules R91, R92 and R94). -/
def Sys2Proof.Laws.EncodedLength.Statement (i : Sys2Proof.Instr) : Prop :=
  ∀ m : Sys2Proof.OpMap, (Sys2Proof.encode m i).length =
    match i.op? with
    | none => 1
    | some k => k.cls.width

theorem Sys2Proof.Laws.EncodedLength.halt : Statement .halt := fun _ => rfl

theorem Sys2Proof.Laws.EncodedLength.nop : Statement .nop := fun _ => rfl

theorem Sys2Proof.Laws.EncodedLength.ret : Statement .ret := fun _ => rfl

theorem Sys2Proof.Laws.EncodedLength.di : Statement .di := fun _ => rfl

theorem Sys2Proof.Laws.EncodedLength.ei : Statement .ei := fun _ => rfl

theorem Sys2Proof.Laws.EncodedLength.mfpc (a : RegNum) : Statement (.mfpc a) := fun _ => rfl

theorem Sys2Proof.Laws.EncodedLength.mfsp (a : RegNum) : Statement (.mfsp a) := fun _ => rfl

theorem Sys2Proof.Laws.EncodedLength.mfip (a : RegNum) : Statement (.mfip a) := fun _ => rfl

theorem Sys2Proof.Laws.EncodedLength.mfcr (a : RegNum) : Statement (.mfcr a) := fun _ => rfl

theorem Sys2Proof.Laws.EncodedLength.not (a : RegNum) : Statement (.not a) := fun _ => rfl

theorem Sys2Proof.Laws.EncodedLength.push (a : RegNum) : Statement (.push a) := fun _ => rfl

theorem Sys2Proof.Laws.EncodedLength.pop (a : RegNum) : Statement (.pop a) := fun _ => rfl

theorem Sys2Proof.Laws.EncodedLength.mtsp (a : RegNum) : Statement (.mtsp a) := fun _ => rfl

theorem Sys2Proof.Laws.EncodedLength.mtip (a : RegNum) : Statement (.mtip a) := fun _ => rfl

theorem Sys2Proof.Laws.EncodedLength.mtcr (a : RegNum) : Statement (.mtcr a) := fun _ => rfl

theorem Sys2Proof.Laws.EncodedLength.int (a : RegNum) : Statement (.int a) := fun _ => rfl

theorem Sys2Proof.Laws.EncodedLength.mov (a b : RegNum) : Statement (.mov a b) := fun _ => rfl

theorem Sys2Proof.Laws.EncodedLength.lb (a b : RegNum) : Statement (.lb a b) := fun _ => rfl

theorem Sys2Proof.Laws.EncodedLength.sb (a b : RegNum) : Statement (.sb a b) := fun _ => rfl

theorem Sys2Proof.Laws.EncodedLength.add (a b : RegNum) : Statement (.add a b) := fun _ => rfl

theorem Sys2Proof.Laws.EncodedLength.addu (a b : RegNum) : Statement (.addu a b) := fun _ => rfl

theorem Sys2Proof.Laws.EncodedLength.sub (a b : RegNum) : Statement (.sub a b) := fun _ => rfl

theorem Sys2Proof.Laws.EncodedLength.subu (a b : RegNum) : Statement (.subu a b) := fun _ => rfl

theorem Sys2Proof.Laws.EncodedLength.mul (a b : RegNum) : Statement (.mul a b) := fun _ => rfl

theorem Sys2Proof.Laws.EncodedLength.mulu (a b : RegNum) : Statement (.mulu a b) := fun _ => rfl

theorem Sys2Proof.Laws.EncodedLength.and (a b : RegNum) : Statement (.and a b) := fun _ => rfl

theorem Sys2Proof.Laws.EncodedLength.or (a b : RegNum) : Statement (.or a b) := fun _ => rfl

theorem Sys2Proof.Laws.EncodedLength.xor (a b : RegNum) : Statement (.xor a b) := fun _ => rfl

theorem Sys2Proof.Laws.EncodedLength.shl (a b : RegNum) : Statement (.shl a b) := fun _ => rfl

theorem Sys2Proof.Laws.EncodedLength.shr (a b : RegNum) : Statement (.shr a b) := fun _ => rfl

theorem Sys2Proof.Laws.EncodedLength.cmp (a b : RegNum) : Statement (.cmp a b) := fun _ => rfl

theorem Sys2Proof.Laws.EncodedLength.cmpu (a b : RegNum) : Statement (.cmpu a b) := fun _ => rfl

theorem Sys2Proof.Laws.EncodedLength.bc (a b : RegNum) : Statement (.bc a b) := fun _ => rfl

theorem Sys2Proof.Laws.EncodedLength.bcl (a b : RegNum) : Statement (.bcl a b) := fun _ => rfl

theorem Sys2Proof.Laws.EncodedLength.div (a b c : RegNum) : Statement (.div a b c) := fun _ => rfl

theorem Sys2Proof.Laws.EncodedLength.divu (a b c : RegNum) : Statement (.divu a b c) := fun _ => rfl

theorem Sys2Proof.Laws.EncodedLength.bal (a b c : RegNum) : Statement (.bal a b c) := fun _ => rfl

theorem Sys2Proof.Laws.EncodedLength.lsm (a b c : RegNum) : Statement (.lsm a b c) := fun _ => rfl

theorem Sys2Proof.Laws.EncodedLength.stm (a b c : RegNum) : Statement (.stm a b c) := fun _ => rfl

theorem Sys2Proof.Laws.EncodedLength.mskr (a b c : RegNum) : Statement (.mskr a b c) := fun _ => rfl

theorem Sys2Proof.Laws.EncodedLength.msks (a b c : RegNum) : Statement (.msks a b c) := fun _ => rfl

theorem Sys2Proof.Laws.EncodedLength.li (a : RegNum) (imm : Word) : Statement (.li a imm) := fun _ => rfl
end

