-- ==== Sys2Proof/Laws/Runs.lean ====
section
/-!
SUPPORT. The run of registers of a block transfer: which registers it holds, what writing one word to all of them
gives, and what storing all of them to one word leaves (rules R224 and R225).
-/

namespace Sys2Proof.Machine

/-- A run holds exactly the registers from its first to its last. -/
theorem mem_regRun (a b r : RegNum) : r ∈ regRun a b ↔ a ≤ r ∧ r ≤ b := by
  have hr := r.isLt
  have hb := b.isLt
  simp only [regRun, List.mem_map, List.mem_range, BitVec.le_def]
  constructor
  · rintro ⟨k, hk, rfl⟩
    have hm : (a.toNat + k) % 2 ^ 8 = a.toNat + k := Nat.mod_eq_of_lt (by omega)
    simp only [BitVec.toNat_ofNat, hm]
    omega
  · rintro ⟨h1, h2⟩
    refine ⟨r.toNat - a.toNat, by omega, ?_⟩
    rw [Nat.add_sub_cancel' h1, BitVec.ofNat_toNat, BitVec.setWidth_eq]

/-- A run that is not empty ends with its last register. -/
theorem regRun_eq_append (a b : RegNum) (h : a ≤ b) : ∃ rs, regRun a b = rs ++ [b] := by
  have h' : a.toNat ≤ b.toNat := h
  refine ⟨(List.range (b.toNat - a.toNat)).map fun k => BitVec.ofNat 8 (a.toNat + k), ?_⟩
  have e : b.toNat + 1 - a.toNat = (b.toNat - a.toNat) + 1 := by omega
  rw [regRun, e, List.range_succ, List.map_append, List.map_cons, List.map_nil, Nat.add_sub_cancel' h',
    BitVec.ofNat_toNat, BitVec.setWidth_eq]

variable (s : State) (rs : List RegNum) (v : Word)

@[simp] theorem setRegs_nil : s.setRegs [] v = s := rfl

@[simp] theorem setRegs_cons (r : RegNum) : s.setRegs (r :: rs) v = (s.setReg r v).setRegs rs v := rfl

@[simp] theorem setRegs_cfg : (s.setRegs rs v).cfg = s.cfg := by
  induction rs generalizing s with
  | nil => rfl
  | cons r rs ih => rw [setRegs_cons, ih, setReg_cfg]

@[simp] theorem setRegs_pc : (s.setRegs rs v).pc = s.pc := by
  induction rs generalizing s with
  | nil => rfl
  | cons r rs ih => rw [setRegs_cons, ih, setReg_pc]

@[simp] theorem setRegs_sp : (s.setRegs rs v).sp = s.sp := by
  induction rs generalizing s with
  | nil => rfl
  | cons r rs ih => rw [setRegs_cons, ih, setReg_sp]

@[simp] theorem setRegs_ip : (s.setRegs rs v).ip = s.ip := by
  induction rs generalizing s with
  | nil => rfl
  | cons r rs ih => rw [setRegs_cons, ih, setReg_ip]

@[simp] theorem setRegs_cr : (s.setRegs rs v).cr = s.cr := by
  induction rs generalizing s with
  | nil => rfl
  | cons r rs ih => rw [setRegs_cons, ih, setReg_cr]

@[simp] theorem setRegs_ie : (s.setRegs rs v).ie = s.ie := by
  induction rs generalizing s with
  | nil => rfl
  | cons r rs ih => rw [setRegs_cons, ih, setReg_ie]

@[simp] theorem setRegs_mem : (s.setRegs rs v).mem = s.mem := by
  induction rs generalizing s with
  | nil => rfl
  | cons r rs ih => rw [setRegs_cons, ih, setReg_mem]

@[simp] theorem setRegs_out : (s.setRegs rs v).out = s.out := by
  induction rs generalizing s with
  | nil => rfl
  | cons r rs ih => rw [setRegs_cons, ih, setReg_out]

@[simp] theorem setRegs_status : (s.setRegs rs v).status = s.status := by
  induction rs generalizing s with
  | nil => rfl
  | cons r rs ih => rw [setRegs_cons, ih, setReg_status]

/-- Reading a register after one word was written to every register of a list (rule R224). -/
theorem setRegs_reg (q : RegNum) : (s.setRegs rs v).reg q = if q ∈ rs then v else s.reg q := by
  induction rs generalizing s with
  | nil => simp
  | cons r rs ih =>
    rw [setRegs_cons, ih, setReg_reg]
    by_cases h1 : q ∈ rs <;> by_cases h2 : q = r <;> simp [h1, h2]

/-- Storing registers to one word touches no byte outside it (rule R225). -/
theorem storeRun_read_outside (a p : Nat) (h : p < a ∨ a + 8 ≤ p) : (s.storeRun a rs).read p = s.mem.read p := by
  unfold State.storeRun
  generalize s.mem = m
  induction rs generalizing m with
  | nil => rfl
  | cons r rs ih => rw [List.foldl_cons, ih, Memory.read_writeWord_outside _ _ _ _ h]

/-- Storing registers to one word keeps the canonical form. -/
theorem storeRun_wf (a : Nat) (h : s.mem.wf) : (s.storeRun a rs).wf := by
  unfold State.storeRun
  generalize s.mem = m at h
  induction rs generalizing m with
  | nil => exact h
  | cons r rs ih => exact ih _ (Memory.writeWord_wf _ _ _ h)

/-- Storing registers to one word inside memory lists only addresses inside memory. -/
theorem storeRun_inside (a n : Nat) (ha : a + 8 ≤ n) (h : ∀ c ∈ s.mem, c.1 < n) :
    ∀ c ∈ s.storeRun a rs, c.1 < n := by
  unfold State.storeRun
  generalize s.mem = m at h
  induction rs generalizing m with
  | nil => exact h
  | cons r rs ih => exact ih _ (Memory.writeBytes_inside _ _ _ (beBytes (s.reg r)) ha h)

/-- The last store is what the word holds (rule R225). -/
theorem storeRun_readWord (a : Nat) (r : RegNum) : (s.storeRun a (rs ++ [r])).readWord a = s.reg r := by
  simp [State.storeRun, List.foldl_append]

end Sys2Proof.Machine
end

