-- ==== Sys2Proof/Laws/Step.lean ====
section
/-!
SUPPORT. What a step answers in each run status (rules R35, R45 and R101), and how a run unfolds by one step.
-/

namespace Sys2Proof.Machine

variable {s t : State}

/-- A running machine steps by the instruction it fetches (rule R101). -/
theorem step_running_ok {i : Instr} (h : s.status = .running) (hd : s.fetchDecode = .ok i) : step s = exec i s := by
  simp [step, h, hd]

/-- A running machine that can fetch no instruction takes the fault of the fetch (rules R101 and R311). -/
theorem step_running_error {c : FaultCause} (h : s.status = .running) (hd : s.fetchDecode = .error c) :
    step s = .next (s.takeFault c) := by
  simp [step, h, hd]

/-- A halted machine has no step (rule R35). -/
theorem step_halted (h : s.status = .halted) : step s = .fault .stepAfterHalt := by
  simp only [step, h]

/-- A faulted machine has no step (rules R35 and R312). -/
theorem step_faulted {r : FaultRecord} (h : s.status = .faulted r) : step s = .fault (.stepAfterFault r) := by
  simp only [step, h]

/-- A run goes on from the next state. -/
theorem run_succ_next (k : Nat) (h : step s = .next t) :
    Sys2Proof.core.run (k + 1) s = Sys2Proof.core.run k t := by
  refine (Host.Core.run.eq_2 Sys2Proof.core s k).trans ?_
  have h' : Sys2Proof.core.step s = .next t := h
  rw [h']

/-- A run ends where a step faults. -/
theorem run_succ_fault (k : Nat) {r : Fault} (h : step s = .fault r) :
    Sys2Proof.core.run (k + 1) s = .fault r := by
  refine (Host.Core.run.eq_2 Sys2Proof.core s k).trans ?_
  have h' : Sys2Proof.core.step s = .fault r := h
  rw [h']

/-- A run ends where a step is refused. -/
theorem run_succ_refused (k : Nat) {r : Refusal} (h : step s = .refused r) :
    Sys2Proof.core.run (k + 1) s = .refused r := by
  refine (Host.Core.run.eq_2 Sys2Proof.core s k).trans ?_
  have h' : Sys2Proof.core.step s = .refused r := h
  rw [h']

end Sys2Proof.Machine
end

