-- ==== Sys2Proof/Machine/Asm.lean ====
section
/-!
DEFINITION. The assembly syntax of rule R103: a text, as a list of characters, becomes the bytes of an image. It is no
part of the machine's step; it is how the spec writes programs. What R103 leaves open is in log entry 17.
-/

namespace Sys2Proof.Asm

/-- The mnemonic of an operation (rules R97 and R103). -/
def mnemonic : Op → String
  | .nop => "NOP"
  | .ret => "RET"
  | .di => "DI"
  | .ei => "EI"
  | .mfpc => "MFPC"
  | .mfsp => "MFSP"
  | .mfip => "MFIP"
  | .mfcr => "MFCR"
  | .not => "NOT"
  | .push => "PUSH"
  | .pop => "POP"
  | .mtsp => "MTSP"
  | .mtip => "MTIP"
  | .mtcr => "MTCR"
  | .int => "INT"
  | .mov => "MOV"
  | .lb => "LB"
  | .sb => "SB"
  | .add => "ADD"
  | .addu => "ADDU"
  | .sub => "SUB"
  | .subu => "SUBU"
  | .mul => "MUL"
  | .mulu => "MULU"
  | .and => "AND"
  | .or => "OR"
  | .xor => "XOR"
  | .shl => "SHL"
  | .shr => "SHR"
  | .cmp => "CMP"
  | .cmpu => "CMPU"
  | .bc => "BC"
  | .bcl => "BCL"
  | .div => "DIV"
  | .divu => "DIVU"
  | .bal => "BAL"
  | .lsm => "LSM"
  | .stm => "STM"
  | .mskr => "MSKR"
  | .msks => "MSKS"
  | .li => "LI"

/-- The operation a mnemonic names; `none` for any other word, HALT among them. -/
def opOf (w : List Char) : Option Op :=
  Op.all.find? fun k => (mnemonic k).toList = w

/-! ### Words of a line -/

/-- What a line is cut into. -/
inductive Token where
  /-- A mnemonic, a directive, a register, a number or a label name. -/
  | word (w : List Char)
  /-- The comma between operands. -/
  | comma
  /-- The colon after a label. -/
  | colon
  deriving DecidableEq, Repr

/-- The characters of a word: the model's choice (log entry 17). -/
def isWordChar (c : Char) : Bool := c.isAlphanum || c = '_' || c = '.'

/-- A word ends: its characters were gathered last first. -/
def flush (acc : List Char) (ts : List Token) : List Token :=
  match acc with
  | [] => ts
  | _ => .word acc.reverse :: ts

/-- The tokens of a line up to a comment; `none` where a character has no place. -/
def tokens : List Char → List Char → Option (List Token)
  | [], acc => some (flush acc [])
  | c :: cs, acc =>
    if c = ';' then some (flush acc [])
    else if c = ' ' || c = '\t' then (tokens cs []).map fun ts => flush acc ts
    else if c = ',' then (tokens cs []).map fun ts => flush acc (.comma :: ts)
    else if c = ':' then (tokens cs []).map fun ts => flush acc (.colon :: ts)
    else if isWordChar c then tokens cs (c :: acc)
    else none

/-- The lines of a text. -/
def lines : List Char → List Char → List (List Char)
  | [], acc => [acc.reverse]
  | c :: cs, acc => if c = '\n' then acc.reverse :: lines cs [] else lines cs (c :: acc)

/-! ### Numbers and registers -/

/-- The value of a digit in a base up to 16. -/
def digitOf (base : Nat) (c : Char) : Option Nat :=
  let v := c.toNat
  let d := if 48 ≤ v && v ≤ 57 then v - 48 else if 97 ≤ v && v ≤ 102 then v - 87 else if 65 ≤ v && v ≤ 70 then v - 55 else 16
  if d < base then some d else none

/-- The number written by digits in a base, after a value already read. -/
def digits (base : Nat) : List Char → Nat → Option Nat
  | [], n => some n
  | c :: cs, n => (digitOf base c).bind fun d => digits base cs (base * n + d)

/-- A number, decimal or hexadecimal with `0x` (rule R103). That leading zeros and both cases of hexadecimal digits are
accepted, and no sign, is the model's choice (log entry 17). -/
def number : List Char → Option Nat
  | [] => none
  | '0' :: 'x' :: c :: cs => digits 16 (c :: cs) 0
  | w => digits 10 w 0

/-- A register, `r0` to `r255` (rule R103). That leading zeros are accepted (`r007` is `r7`) is the model's choice (log
entry 17). -/
def register : List Char → Option RegNum
  | 'r' :: c :: cs => (digits 10 (c :: cs) 0).bind fun n => if n < 256 then some (BitVec.ofNat 8 n) else none
  | _ => none

/-! ### Statements -/

/-- One statement of a program (rule R103). -/
inductive Stmt where
  /-- `name:`. -/
  | label (name : List Char)
  /-- An instruction: its mnemonic and its operand words. -/
  | instr (mnem : List Char) (args : List (List Char))
  /-- `.byte v, …`: raw bytes. -/
  | byte (args : List (List Char))
  /-- `.word v`: a big-endian word. -/
  | word (arg : List Char)
  /-- `.org addr`: set the assembly address, padding with zero bytes. -/
  | org (addr : Nat)
  deriving DecidableEq, Repr

/-- Operand words separated by commas. -/
def operands : List Token → Option (List (List Char))
  | [] => some []
  | [.word w] => some [w]
  | .word w :: .comma :: ts => (operands ts).bind fun l => if l.isEmpty then none else some (w :: l)
  | _ => none

/-- The statement that begins with a word. That `.byte` may have no value, `.word` has exactly one, and `.org` takes a
number and never a label is the model's choice (log entry 17). -/
def statement (w : List Char) (ts : List Token) : Option Stmt :=
  (operands ts).bind fun args =>
    if w = ".byte".toList then some (.byte args)
    else if w = ".word".toList then
      match args with
      | [v] => some (.word v)
      | _ => none
    else if w = ".org".toList then
      match args with
      | [v] => (number v).map .org
      | _ => none
    else some (.instr w args)

/-- The statements of a line: nothing, a label, an instruction or a directive, or a label before one of these. That a
label may share its line, and may be any word, is the model's choice (log entry 17). -/
def lineStmts : List Token → Option (List Stmt)
  | [] => some []
  | [.word n, .colon] => some [.label n]
  | .word n :: .colon :: .word w :: ts => (statement w ts).map fun st => [.label n, st]
  | .word w :: ts => (statement w ts).map fun st => [st]
  | _ => none

/-- The statements of a text. -/
def parse (text : List Char) : Option (List Stmt) :=
  ((lines text []).mapM fun l => (tokens l []).bind lineStmts).map List.flatten

/-! ### Assembling -/

/-- The labels met so far, with their addresses. -/
abbrev Labels := List (List Char × Nat)

/-- The value of an operand: a number below 2^64, or a label's address (rule R103). That a word spelled like a number is
that number, and so hides a label of that name, is the model's choice (log entry 17). -/
def value (ls : Labels) (w : List Char) : Option Word :=
  match number w with
  | some n => if n < 2 ^ 64 then some (BitVec.ofNat 64 n) else none
  | none => (ls.find? fun l => l.1 = w).map fun l => BitVec.ofNat 64 l.2

/-- A raw byte: a number below 256, never a label (log entry 17). -/
def byteValue (w : List Char) : Option Byte :=
  (number w).bind fun n => if n < 256 then some (BitVec.ofNat 8 n) else none

/-- The operand bytes of a class, from its operand words in field order A, B, C (rules R94 and R103). -/
def operandBytes (ls : Labels) (c : OpClass) (args : List (List Char)) : Option (List Byte) :=
  match c, args with
  | .z, [] => some []
  | .r1, [a] => [a].mapM register
  | .r2, [a, b] => [a, b].mapM register
  | .r3, [a, b, c] => [a, b, c].mapM register
  | .imm, [a, v] => (register a).bind fun r => (value ls v).map fun w => r :: beBytes w
  | _, _ => none

/-- The bytes of a statement at an assembly address (rule R103). That `.byte` with no value gives no bytes, and that an
`.org` below the assembly address is rejected, is the model's choice (log entry 17). -/
def stmtBytes (m : OpMap) (ls : Labels) (at_ : Nat) : Stmt → Option (List Byte)
  | .label _ => some []
  | .instr w args =>
    if w = "HALT".toList then if args.isEmpty then some [0x00#8] else none
    else (opOf w).bind fun k => (operandBytes ls k.cls args).map fun bs => m.byteOf k :: bs
  | .byte args => args.mapM byteValue
  | .word v => (value ls v).map beBytes
  | .org a => if at_ ≤ a then some (List.replicate (a - at_) 0x00#8) else none

/-- How many bytes a statement takes at an assembly address; it does not depend on the labels. -/
def stmtSize (at_ : Nat) : Stmt → Option Nat
  | .label _ => some 0
  | .instr w _ => if w = "HALT".toList then some 1 else (opOf w).map fun k => k.cls.width
  | .byte args => some args.length
  | .word _ => some 8
  | .org a => if at_ ≤ a then some (a - at_) else none

/-- The addresses of the labels of a program from an assembly address on; that a label may be defined once is the model's
choice (log entry 17). -/
def labelsFrom : Nat → List Stmt → Option Labels
  | _, [] => some []
  | a, st :: sts =>
    (stmtSize a st).bind fun n =>
      (labelsFrom (a + n) sts).bind fun ls =>
        match st with
        | .label w => if ls.any (fun l => l.1 = w) then none else some ((w, a) :: ls)
        | _ => some ls

/-- The bytes of a program from an assembly address on. -/
def bytesFrom (m : OpMap) (ls : Labels) : Nat → List Stmt → Option (List Byte)
  | _, [] => some []
  | a, st :: sts =>
    (stmtBytes m ls a st).bind fun bs =>
      (bytesFrom m ls (a + bs.length) sts).map fun rest => bs ++ rest

/-- The image a text assembles to, from address 0; `none` where the text is not of the syntax (rule R103). -/
def assemble (m : OpMap) (text : List Char) : Option (List Byte) :=
  (parse text).bind fun sts => (labelsFrom 0 sts).bind fun ls => bytesFrom m ls 0 sts

end Sys2Proof.Asm
end

