-- ==== Sys2Proof/Tests/Slice0.lean ====
section
/-!
SUPPORT. The model's own tests: the well-formedness checks refuse ill-formed terms; every instruction's bytes, written
out from rules R94 to R98, decode to it; single steps, with the results of the spec's vectors (spec/95_test_vectors.md,
cited as V<n>); and for every obligation with hypotheses a witness that meets them, one for each clause.
-/

namespace Sys2Proof.Tests

open Sys2Proof Sys2Proof.Machine

/-! ### Helpers -/

/-- The reset state with the program counter and some general registers set. -/
def start (pc : Word) (regs : List (RegNum × Word)) : State :=
  regs.foldl (fun s r => s.setReg r.1 r.2) (State.reset.setPc pc)

/-- A state with bytes placed in memory. -/
def withBytes (s : State) (a : Nat) (bs : List Byte) : State :=
  s.setMem (s.mem.writeBytes a bs)

/-- The step answers a next state for which the check holds. -/
def gives (o : Host.Outcome State Fault Refusal) (p : State → Bool) : Bool :=
  match o with
  | .next t => p t
  | .fault _ => false
  | .refused _ => false

/-- The instruction answers a next state for which the check holds. -/
def runs (i : Instr) (s : State) (p : State → Bool) : Bool :=
  gives (exec i s) p

/-- Decoding answers this instruction and leaves these bytes. -/
def reads (bs : List Byte) (i : Instr) (rest : List Byte) : Bool :=
  match decode OpMap.reference bs with
  | .ok (j, r) => j = i && r = rest
  | .error _ => false

/-! ### Well-formedness refuses each ill-formed term -/

/-- R97, constraint 1: a byte of another class (`0x8B` is a one-register byte) is refused for ADD. -/
theorem test_wf_refuses_wrong_nibble :
    (Instr.add 1#8 2#8).wellFormed { OpMap.reference with add := 0x8B#8 } = false := by decide

/-- R97, constraint 2: `0x00` is refused for ADD, though its high nibble is that of the class. -/
theorem test_wf_refuses_zero_byte :
    (Instr.add 1#8 2#8).wellFormed { OpMap.reference with add := 0x00#8 } = false := by decide

/-- R97, constraint 3: a byte shared by ADD and SUB is refused for both. -/
theorem test_wf_refuses_shared_byte :
    (Instr.add 1#8 2#8).wellFormed { OpMap.reference with add := 0x22#8 } = false ∧
    (Instr.sub 1#8 2#8).wellFormed { OpMap.reference with add := 0x22#8 } = false := by decide

/-- R5 and R97: a configuration with no memory, or with an illegal opcode map, is refused; the reference one is not. -/
theorem test_wf_refuses_config :
    Config.legal { Config.reference with memSize := 0#64 } = false ∧
    Config.legal { Config.reference with opmap := { OpMap.reference with li := 0xF0#8 } } = false ∧
    Config.legal Config.reference = true := by decide

/-! ### Every constructor's bytes decode to it (rules R94, R96 and R98) -/

theorem test_decode_halt : reads [0x00#8, 0x55#8] .halt [0x55#8] = true := rfl

theorem test_decode_nop : reads [0xF0#8, 0x55#8] .nop [0x55#8] = true := rfl

theorem test_decode_ret : reads [0xF1#8, 0x55#8] .ret [0x55#8] = true := rfl

theorem test_decode_di : reads [0xF2#8, 0x55#8] .di [0x55#8] = true := rfl

theorem test_decode_ei : reads [0xF3#8, 0x55#8] .ei [0x55#8] = true := rfl

theorem test_decode_mfpc : reads [0x80#8, 0x07#8, 0x55#8] (.mfpc 0x07#8) [0x55#8] = true := rfl

theorem test_decode_mfsp : reads [0x81#8, 0x07#8, 0x55#8] (.mfsp 0x07#8) [0x55#8] = true := rfl

theorem test_decode_mfip : reads [0x82#8, 0x07#8, 0x55#8] (.mfip 0x07#8) [0x55#8] = true := rfl

theorem test_decode_mfcr : reads [0x83#8, 0x07#8, 0x55#8] (.mfcr 0x07#8) [0x55#8] = true := rfl

theorem test_decode_not : reads [0x84#8, 0x07#8, 0x55#8] (.not 0x07#8) [0x55#8] = true := rfl

theorem test_decode_push : reads [0x85#8, 0x07#8, 0x55#8] (.push 0x07#8) [0x55#8] = true := rfl

theorem test_decode_pop : reads [0x86#8, 0x07#8, 0x55#8] (.pop 0x07#8) [0x55#8] = true := rfl

theorem test_decode_mtsp : reads [0x87#8, 0x07#8, 0x55#8] (.mtsp 0x07#8) [0x55#8] = true := rfl

theorem test_decode_mtip : reads [0x88#8, 0x07#8, 0x55#8] (.mtip 0x07#8) [0x55#8] = true := rfl

theorem test_decode_mtcr : reads [0x89#8, 0x07#8, 0x55#8] (.mtcr 0x07#8) [0x55#8] = true := rfl

theorem test_decode_int : reads [0x8A#8, 0x07#8, 0x55#8] (.int 0x07#8) [0x55#8] = true := rfl

theorem test_decode_mov : reads [0x10#8, 0x07#8, 0xF8#8, 0x55#8] (.mov 0x07#8 0xF8#8) [0x55#8] = true := rfl

theorem test_decode_lb : reads [0x11#8, 0x07#8, 0xF8#8, 0x55#8] (.lb 0x07#8 0xF8#8) [0x55#8] = true := rfl

theorem test_decode_sb : reads [0x12#8, 0x07#8, 0xF8#8, 0x55#8] (.sb 0x07#8 0xF8#8) [0x55#8] = true := rfl

theorem test_decode_add : reads [0x20#8, 0x07#8, 0xF8#8, 0x55#8] (.add 0x07#8 0xF8#8) [0x55#8] = true := rfl

theorem test_decode_addu : reads [0x21#8, 0x07#8, 0xF8#8, 0x55#8] (.addu 0x07#8 0xF8#8) [0x55#8] = true := rfl

theorem test_decode_sub : reads [0x22#8, 0x07#8, 0xF8#8, 0x55#8] (.sub 0x07#8 0xF8#8) [0x55#8] = true := rfl

theorem test_decode_subu : reads [0x23#8, 0x07#8, 0xF8#8, 0x55#8] (.subu 0x07#8 0xF8#8) [0x55#8] = true := rfl

theorem test_decode_mul : reads [0x24#8, 0x07#8, 0xF8#8, 0x55#8] (.mul 0x07#8 0xF8#8) [0x55#8] = true := rfl

theorem test_decode_mulu : reads [0x25#8, 0x07#8, 0xF8#8, 0x55#8] (.mulu 0x07#8 0xF8#8) [0x55#8] = true := rfl

theorem test_decode_and : reads [0x30#8, 0x07#8, 0xF8#8, 0x55#8] (.and 0x07#8 0xF8#8) [0x55#8] = true := rfl

theorem test_decode_or : reads [0x31#8, 0x07#8, 0xF8#8, 0x55#8] (.or 0x07#8 0xF8#8) [0x55#8] = true := rfl

theorem test_decode_xor : reads [0x32#8, 0x07#8, 0xF8#8, 0x55#8] (.xor 0x07#8 0xF8#8) [0x55#8] = true := rfl

theorem test_decode_shl : reads [0x33#8, 0x07#8, 0xF8#8, 0x55#8] (.shl 0x07#8 0xF8#8) [0x55#8] = true := rfl

theorem test_decode_shr : reads [0x34#8, 0x07#8, 0xF8#8, 0x55#8] (.shr 0x07#8 0xF8#8) [0x55#8] = true := rfl

theorem test_decode_cmp : reads [0x40#8, 0x07#8, 0xF8#8, 0x55#8] (.cmp 0x07#8 0xF8#8) [0x55#8] = true := rfl

theorem test_decode_cmpu : reads [0x41#8, 0x07#8, 0xF8#8, 0x55#8] (.cmpu 0x07#8 0xF8#8) [0x55#8] = true := rfl

theorem test_decode_bc : reads [0x50#8, 0x07#8, 0xF8#8, 0x55#8] (.bc 0x07#8 0xF8#8) [0x55#8] = true := rfl

theorem test_decode_bcl : reads [0x51#8, 0x07#8, 0xF8#8, 0x55#8] (.bcl 0x07#8 0xF8#8) [0x55#8] = true := rfl

theorem test_decode_div :
    reads [0xC0#8, 0x07#8, 0xF8#8, 0x39#8, 0x55#8]
      (.div 0x07#8 0xF8#8 0x39#8) [0x55#8] = true := rfl

theorem test_decode_divu :
    reads [0xC1#8, 0x07#8, 0xF8#8, 0x39#8, 0x55#8]
      (.divu 0x07#8 0xF8#8 0x39#8) [0x55#8] = true := rfl

theorem test_decode_bal :
    reads [0xC2#8, 0x07#8, 0xF8#8, 0x39#8, 0x55#8]
      (.bal 0x07#8 0xF8#8 0x39#8) [0x55#8] = true := rfl

theorem test_decode_lsm :
    reads [0xC3#8, 0x07#8, 0xF8#8, 0x39#8, 0x55#8]
      (.lsm 0x07#8 0xF8#8 0x39#8) [0x55#8] = true := rfl

theorem test_decode_stm :
    reads [0xC4#8, 0x07#8, 0xF8#8, 0x39#8, 0x55#8]
      (.stm 0x07#8 0xF8#8 0x39#8) [0x55#8] = true := rfl

theorem test_decode_mskr :
    reads [0xC5#8, 0x07#8, 0xF8#8, 0x39#8, 0x55#8]
      (.mskr 0x07#8 0xF8#8 0x39#8) [0x55#8] = true := rfl

theorem test_decode_msks :
    reads [0xC6#8, 0x07#8, 0xF8#8, 0x39#8, 0x55#8]
      (.msks 0x07#8 0xF8#8 0x39#8) [0x55#8] = true := rfl

theorem test_decode_li :
    reads [0xE0#8, 0x07#8, 0x12#8, 0x34#8, 0x56#8, 0x78#8, 0x9A#8, 0xBC#8, 0xDE#8, 0xF0#8, 0x55#8]
      (.li 0x07#8 0x123456789ABCDEF0#64) [0x55#8] = true := rfl

/-- The bits of an instruction as spec/opcode_table.json numbers them: byte 0 is the lowest. -/
theorem test_decodeTableWord :
    decodeTableWord 24 0x020120 = some (.add 1#8 2#8) ∧
    decodeTableWord 80 0x887766554433221105E0 = some (.li 5#8 0x1122334455667788#64) ∧
    decodeTableWord 8 0x01 = none := by decide

/-- An instruction placed where the machine fetches is the one the next step runs. -/
theorem test_withFetchWord_runs :
    gives (step (State.reset.withFetchWord 80 0x887766554433221105E0))
      (fun t => t.reg 5#8 = 0x1122334455667788#64 && t.pc = 10#64) = true := rfl

/-! ### Single steps, from the spec's vectors -/

/-- V1: HALT stops with the program counter unchanged. -/
theorem test_step_halt : step State.reset = .next (State.reset.setStatus .halted) := rfl

/-- V2. -/
theorem test_nop : exec .nop (start 0x10#64 []) = .next (State.reset.setPc 0x11#64) := rfl

/-- V3. -/
theorem test_ret :
    runs .ret (withBytes ((start 0x30#64 []).setSp 0xFFF8#64) 0xFFFF [0x24#8])
      (fun t => t.sp = 0x10000#64 && t.pc = 0x24#64) = true := rfl

/-- V4. -/
theorem test_ret_underflow :
    exec .ret (start 0x30#64 []) = .next ((start 0x30#64 []).takeFault (.addressFault 0x10000#64 .word .read)) := rfl

/-- V6, from `ie` set. -/
theorem test_di : exec .di ((start 0x20#64 []).setIe true) = .next (State.reset.setPc 0x21#64) := rfl

/-- V7. -/
theorem test_ei : runs .ei (start 0x21#64 []) (fun t => t.ie = true && t.pc = 0x22#64) = true := rfl

/-- V10. -/
theorem test_mfpc : runs (.mfpc 3#8) (start 0x30#64 []) (fun t => t.reg 3#8 = 0x32#64 && t.pc = 0x32#64) = true := rfl

/-- V11. -/
theorem test_mfsp : runs (.mfsp 2#8) (start 0#64 []) (fun t => t.reg 2#8 = 0x10000#64 && t.pc = 2#64) = true := rfl

/-- V12. -/
theorem test_mfip : runs (.mfip 4#8) (start 0#64 []) (fun t => t.reg 4#8 = 0xF000#64 && t.pc = 2#64) = true := rfl

/-- V13. -/
theorem test_mfcr :
    runs (.mfcr 9#8) ((start 0#64 []).setCr 0x2000000000000000#64)
      (fun t => t.reg 9#8 = 0x2000000000000000#64 && t.pc = 2#64) = true := rfl

/-- V14. -/
theorem test_not :
    runs (.not 7#8) (start 0#64 [(7#8, 0xFF#64)])
      (fun t => t.reg 7#8 = 0xFFFFFFFFFFFFFF00#64 && t.pc = 2#64) = true := rfl

/-- V16. -/
theorem test_push :
    runs (.push 3#8) (start 0#64 [(3#8, 0x0102030405060708#64)])
      (fun t => t.sp = 0xFFF8#64 && t.mem.read 0xFFF8 = 1#8 && t.mem.read 0xFFFF = 8#8) = true := rfl

/-- V17. -/
theorem test_push_wraps :
    exec (.push 3#8) ((start 0#64 []).setSp 4#64) =
      .next (((start 0#64 []).setSp 4#64).takeFault (.addressFault 0xFFFFFFFFFFFFFFFC#64 .word .write)) := rfl

/-- V20. -/
theorem test_pop :
    runs (.pop 4#8) (withBytes ((start 0#64 []).setSp 0xFFF8#64) 0xFFF8
        [1#8, 2#8, 3#8, 4#8, 5#8, 6#8, 7#8, 8#8])
      (fun t => t.reg 4#8 = 0x0102030405060708#64 && t.sp = 0x10000#64) = true := rfl

/-- V21. -/
theorem test_pop_underflow :
    exec (.pop 4#8) (start 0#64 [(4#8, 0x55#64)]) =
      .next ((start 0#64 [(4#8, 0x55#64)]).takeFault (.addressFault 0x10000#64 .word .read)) := rfl

/-- V22. -/
theorem test_mtsp :
    runs (.mtsp 2#8) (start 0#64 [(2#8, 0x8001#64)]) (fun t => t.sp = 0x8001#64 && t.pc = 2#64) = true := rfl

/-- V23. -/
theorem test_mtip :
    runs (.mtip 2#8) (start 0#64 [(2#8, 0x4000#64)]) (fun t => t.ip = 0x4000#64 && t.pc = 2#64) = true := rfl

/-- V24. -/
theorem test_mtcr :
    runs (.mtcr 2#8) (start 0#64 [(2#8, 0x6000000000000000#64)])
      (fun t => t.cr = 0x6000000000000000#64 && t.pc = 2#64) = true := rfl

/-- V26: the number and the byte are low bytes. -/
theorem test_int_emits :
    runs (.int 2#8) (start 0x1E#64 [(0#8, 1#64), (1#8, 0x1242#64), (2#8, 0x101#64)])
      (fun t => t.out = [0x42#8] && t.pc = 0x20#64) = true := rfl

/-- V29. -/
theorem test_int_vector :
    runs (.int 10#8) (withBytes (start 0x22#64 [(10#8, 5#64)]) 0xF02F [0x40#8])
      (fun t => t.sp = 0xFFF8#64 && t.mem.readWord 0xFFF8 = 0x24#64 && t.pc = 0x40#64) = true := rfl

/-- V40. -/
theorem test_mov :
    runs (.mov 1#8 2#8) (start 0#64 [(2#8, 0xDEAD#64)]) (fun t => t.reg 1#8 = 0xDEAD#64 && t.pc = 3#64) = true := rfl

/-- V42: the last byte, zero-extended. -/
theorem test_lb :
    runs (.lb 3#8 1#8) (withBytes (start 0#64 [(1#8, 0xFFFF#64), (3#8, 0xFFFFFFFFFFFFFFFF#64)]) 0xFFFF [0x80#8])
      (fun t => t.reg 3#8 = 0x80#64 && t.pc = 3#64) = true := rfl

/-- V43. -/
theorem test_lb_outside :
    exec (.lb 3#8 1#8) (start 0#64 [(1#8, 0x10000#64)]) =
      .next ((start 0#64 [(1#8, 0x10000#64)]).takeFault (.addressFault 0x10000#64 .byte .read)) := rfl

/-- V45. -/
theorem test_sb :
    runs (.sb 1#8 2#8) (start 0x14#64 [(1#8, 0x100#64), (2#8, 0x12AB#64)])
      (fun t => t.mem = [(0x100, 0xAB#8)] && t.pc = 0x17#64) = true := rfl

/-- V47. -/
theorem test_sb_outside :
    exec (.sb 1#8 2#8) (start 0#64 [(1#8, 0xFFFFFFFFFFFFFFFF#64)]) =
      .next ((start 0#64 [(1#8, 0xFFFFFFFFFFFFFFFF#64)]).takeFault (.addressFault 0xFFFFFFFFFFFFFFFF#64 .byte .write)) := rfl

/-- V48. -/
theorem test_add :
    runs (.add 1#8 2#8) (start 0#64 [(1#8, 5#64), (2#8, 0xFFFFFFFFFFFFFFFD#64)])
      (fun t => t.reg 1#8 = 2#64 && t.pc = 3#64) = true := rfl

/-- V50: the two operands are one register. -/
theorem test_add_doubles :
    runs (.add 1#8 1#8) (start 0#64 [(1#8, 0x8000000000000000#64)])
      (fun t => t.reg 1#8 = 0#64 && t.pc = 3#64) = true := rfl

/-- V51. -/
theorem test_addu :
    runs (.addu 1#8 2#8) (start 0#64 [(1#8, 0xFFFFFFFFFFFFFFFF#64), (2#8, 2#64)])
      (fun t => t.reg 1#8 = 1#64 && t.pc = 3#64) = true := rfl

/-- V52. -/
theorem test_sub :
    runs (.sub 2#8 3#8) (start 0#64 [(2#8, 3#64), (3#8, 5#64)])
      (fun t => t.reg 2#8 = 0xFFFFFFFFFFFFFFFE#64 && t.pc = 3#64) = true := rfl

/-- V54. -/
theorem test_subu :
    runs (.subu 2#8 3#8) (start 0#64 [(3#8, 1#64)])
      (fun t => t.reg 2#8 = 0xFFFFFFFFFFFFFFFF#64 && t.pc = 3#64) = true := rfl

/-- V56. -/
theorem test_mul :
    runs (.mul 1#8 2#8) (start 0#64 [(1#8, 0xFFFFFFFFFFFFFFFE#64), (2#8, 3#64)])
      (fun t => t.reg 1#8 = 0xFFFFFFFFFFFFFFFA#64 && t.pc = 3#64) = true := rfl

/-- V59. -/
theorem test_mulu :
    runs (.mulu 1#8 2#8) (start 0#64 [(1#8, 0xFFFFFFFFFFFFFFFF#64), (2#8, 0xFFFFFFFFFFFFFFFF#64)])
      (fun t => t.reg 1#8 = 1#64 && t.pc = 3#64) = true := rfl

/-- V61. -/
theorem test_and :
    runs (.and 1#8 2#8) (start 0#64 [(1#8, 0xF0F0#64), (2#8, 0xFF00#64)])
      (fun t => t.reg 1#8 = 0xF000#64 && t.pc = 3#64) = true := rfl

/-- V62. -/
theorem test_or :
    runs (.or 1#8 2#8) (start 0#64 [(1#8, 0xF0F0#64), (2#8, 0xFF00#64)])
      (fun t => t.reg 1#8 = 0xFFF0#64 && t.pc = 3#64) = true := rfl

/-- V63. -/
theorem test_xor :
    runs (.xor 1#8 2#8) (start 0#64 [(1#8, 0xF0F0#64), (2#8, 0xFF00#64)])
      (fun t => t.reg 1#8 = 0x0FF0#64 && t.pc = 3#64) = true := rfl

/-- V66. -/
theorem test_shl :
    runs (.shl 1#8 2#8) (start 0#64 [(1#8, 3#64), (2#8, 0x3F#64)])
      (fun t => t.reg 1#8 = 0x8000000000000000#64 && t.pc = 3#64) = true := rfl

/-- V68: the amount is not masked. -/
theorem test_shl_not_masked :
    runs (.shl 1#8 2#8) (start 0#64 [(1#8, 1#64), (2#8, 0x100000000#64)])
      (fun t => t.reg 1#8 = 0#64 && t.pc = 3#64) = true := rfl

/-- V71: logical. -/
theorem test_shr :
    runs (.shr 1#8 2#8) (start 0#64 [(1#8, 0x8000000000000000#64), (2#8, 0x3F#64)])
      (fun t => t.reg 1#8 = 1#64 && t.pc = 3#64) = true := rfl

/-- V73. -/
theorem test_shr_64 :
    runs (.shr 1#8 2#8) (start 0#64 [(1#8, 0xFFFFFFFFFFFFFFFF#64), (2#8, 0x40#64)])
      (fun t => t.reg 1#8 = 0#64 && t.pc = 3#64) = true := rfl

/-- V76: signed. -/
theorem test_cmp :
    runs (.cmp 1#8 2#8) (start 0#64 [(1#8, 0xFFFFFFFFFFFFFFFF#64), (2#8, 1#64)])
      (fun t => t.cr = 0x8000000000000000#64 && t.pc = 3#64) = true := rfl

/-- V77: the old `cr` is replaced. -/
theorem test_cmp_replaces :
    runs (.cmp 1#8 1#8) ((start 0#64 [(1#8, 7#64)]).setCr 0xFFFFFFFFFFFFFFFF#64)
      (fun t => t.cr = 0x2000000000000000#64) = true := rfl

/-- V79: unsigned. -/
theorem test_cmpu :
    runs (.cmpu 1#8 2#8) (start 0#64 [(1#8, 0xFFFFFFFFFFFFFFFF#64), (2#8, 1#64)])
      (fun t => t.cr = 0x4000000000000000#64 && t.pc = 3#64) = true := rfl

/-- V85: other bits of `cr` do not matter. -/
theorem test_bc_taken :
    runs (.bc 6#8 5#8) ((start 0x45#64 [(5#8, 0x3C#64), (6#8, 0xA000000000000000#64)]).setCr
        0xA000000000000001#64)
      (fun t => t.pc = 0x3C#64) = true := rfl

/-- V84: every bit of the mask must be set. -/
theorem test_bc_not_taken :
    runs (.bc 6#8 5#8) ((start 0x45#64 [(5#8, 0x3C#64), (6#8, 0xA000000000000000#64)]).setCr
        0x2000000000000000#64)
      (fun t => t.pc = 0x48#64) = true := rfl

/-- V87. -/
theorem test_bcl_taken :
    runs (.bcl 4#8 9#8) (start 0x46#64 [(9#8, 0x70#64)])
      (fun t => t.sp = 0xFFF8#64 && t.mem.readWord 0xFFF8 = 0x49#64 && t.pc = 0x70#64) = true := rfl

/-- V88. -/
theorem test_bcl_not_taken :
    runs (.bcl 6#8 9#8) (start 0x46#64 [(6#8, 0x8000000000000000#64), (9#8, 0x70#64)])
      (fun t => t.sp = 0x10000#64 && t.mem = [] && t.pc = 0x49#64) = true := rfl

/-- V100: the remainder has the sign of the dividend. -/
theorem test_div :
    runs (.div 3#8 7#8 8#8) (start 0#64 [(3#8, 0xFFFFFFFFFFFFFFF9#64), (7#8, 2#64)])
      (fun t => t.reg 3#8 = 0xFFFFFFFFFFFFFFFD#64 && t.reg 8#8 = 0xFFFFFFFFFFFFFFFF#64) = true := rfl

/-- V108. -/
theorem test_div_remainder_wins :
    runs (.div 3#8 7#8 3#8) (start 0#64 [(3#8, 7#64), (7#8, 2#64)])
      (fun t => t.reg 3#8 = 1#64 && t.pc = 4#64) = true := rfl

/-- V113. -/
theorem test_divu :
    runs (.divu 3#8 7#8 8#8) (start 0#64 [(3#8, 0xFFFFFFFFFFFFFFF9#64), (7#8, 2#64)])
      (fun t => t.reg 3#8 = 0x7FFFFFFFFFFFFFFC#64 && t.reg 8#8 = 1#64) = true := rfl

/-- V114. -/
theorem test_divu_by_zero :
    exec (.divu 3#8 7#8 8#8) (start 0#64 [(3#8, 3#64)]) =
      .next ((start 0#64 [(3#8, 3#64)]).takeFault .divideByZero) := rfl

/-- V117: the jump goes to the old value. -/
theorem test_bal :
    runs (.bal 4#8 5#8 5#8) (start 0x42#64 [(5#8, 0x60#64)])
      (fun t => t.reg 5#8 = 0x46#64 && t.pc = 0x60#64) = true := rfl

/-- V116. -/
theorem test_bal_not_taken :
    runs (.bal 4#8 5#8 6#8) ((start 0x42#64 [(4#8, 0x8000000000000000#64), (5#8, 0x60#64), (6#8, 0x99#64)]).setCr
        0x4000000000000000#64)
      (fun t => t.reg 6#8 = 0x99#64 && t.pc = 0x46#64) = true := rfl

/-- V119: the address is latched. -/
theorem test_lsm :
    runs (.lsm 1#8 3#8 2#8) (withBytes (start 0#64 [(2#8, 0x200#64)]) 0x206 [0x22#8, 0x22#8])
      (fun t => t.reg 2#8 = 0x2222#64 && t.reg 3#8 = 0x2222#64 && t.reg 4#8 = 0#64) = true := rfl

/-- V120. -/
theorem test_lsm_range :
    exec (.lsm 3#8 1#8 9#8) (start 0#64 [(9#8, 0x200#64)]) =
      .next ((start 0#64 [(9#8, 0x200#64)]).takeFault (.blockRange 3#8 1#8)) := rfl

/-- V123: the last register wins. -/
theorem test_stm :
    runs (.stm 1#8 3#8 9#8) (start 0#64 [(1#8, 0x11#64), (2#8, 0x22#64), (3#8, 0x33#64), (9#8, 0x300#64)])
      (fun t => t.mem = [(0x307, 0x33#8)] && t.pc = 4#64) = true := rfl

/-- V125. -/
theorem test_stm_outside :
    exec (.stm 1#8 1#8 9#8) (start 0#64 [(9#8, 0xFFF9#64)]) =
      .next ((start 0#64 [(9#8, 0xFFF9#64)]).takeFault (.addressFault 0xFFF9#64 .word .write)) := rfl

/-- V127. -/
theorem test_mskr :
    runs (.mskr 1#8 2#8 3#8) (start 0#64 [(1#8, 0x1122334455667788#64), (2#8, 0xFFFF0000#64), (3#8, 0xAAAAAAAAAAAAAAAA#64)])
      (fun t => t.reg 1#8 = 0x11223344AAAA7788#64 && t.pc = 4#64) = true := rfl

/-- V130. -/
theorem test_msks :
    runs (.msks 1#8 2#8 3#8) (withBytes (start 0#64 [(1#8, 0xAB#64), (2#8, 0xFF#64), (3#8, 0x300#64)]) 0x300
        [0x11#8, 0x22#8, 0x33#8, 0x44#8, 0x55#8, 0x66#8, 0x77#8, 0x88#8])
      (fun t => t.mem.readWord 0x300 = 0x11223344556677AB#64 && t.pc = 4#64) = true := rfl

/-- V132: as a read. -/
theorem test_msks_outside :
    exec (.msks 1#8 2#8 3#8) (start 0#64 [(3#8, 0xFFFC#64)]) =
      .next ((start 0#64 [(3#8, 0xFFFC#64)]).takeFault (.addressFault 0xFFFC#64 .word .read)) := rfl

/-- V141: the last register, all ones. -/
theorem test_li :
    runs (.li 255#8 0xFFFFFFFFFFFFFFFF#64) (start 0x100#64 [])
      (fun t => t.reg 255#8 = 0xFFFFFFFFFFFFFFFF#64 && t.pc = 0x10A#64) = true := rfl

/-- R103: a text with a label, a comment, a directive of each kind and HALT. -/
theorem test_assemble :
    Asm.assemble OpMap.reference "LI r0, 1\nstart: INT r2 ; call\n.org 13\n.byte 0x41\nHALT".toList =
      some [0xE0#8, 0#8, 0#8, 0#8, 0#8, 0#8, 0#8, 0#8, 0#8, 1#8, 0x8A#8, 2#8, 0#8, 0x41#8, 0#8] := by decide

/-! ### Witnesses: what each obligation supposes can hold, each clause at a boundary of its range -/

/-- The state after an instruction, where it answers one. -/
def after (i : Instr) (s : State) : State :=
  match exec i s with
  | .next t => t
  | .fault _ => s
  | .refused _ => s

/-- The reset state with the program counter and the bytes there. -/
def code (pc : Word) (bs : List Byte) : State :=
  withBytes (start pc []) pc.toNat bs

theorem witness_DecodeOfEncodeIsTheInstruction :
    (Instr.li 255#8 0x8000000000000001#64).wellFormed OpMap.reference = true ∧
    (Instr.halt).wellFormed OpMap.reference = true := by decide

theorem witness_DecodedBytesAreTheEncoding :
    decode OpMap.reference [0xC0#8, 3#8, 7#8, 0xFF#8, 0x55#8] = .ok (.div 3#8 7#8 255#8, [0x55#8]) := rfl

theorem witness_OpcodeByteChoosesHaltOrClass :
    decode OpMap.reference [0x00#8, 0x01#8] = .ok (.halt, [0x01#8]) ∧
    (0xF0#8 : Byte).extractLsb' 4 4 = 0xF#4 ∧ (0x8F#8 : Byte).extractLsb' 4 4 = 0x8#4 ∧
    (0xC0#8 : Byte).extractLsb' 4 4 = 0xC#4 ∧ (0xEF#8 : Byte).extractLsb' 4 4 = 0xE#4 ∧
    (0x01#8 : Byte).extractLsb' 4 4 ∉ [0xF#4, 0x8#4, 0xC#4, 0xE#4] :=
  ⟨rfl, by decide, by decide, by decide, by decide, by decide⟩

theorem witness_LengthIsKnownFromTheFirstByte :
    decode OpMap.reference [0x00#8] = .ok (.halt, []) ∧
    decode OpMap.reference [0x10#8, 1#8, 2#8, 0xE0#8] = .ok (.mov 1#8 2#8, [0xE0#8]) := ⟨rfl, rfl⟩

theorem witness_StepRunsTheDecodedInstruction :
    (code 0xFFFD#64 [0x20#8, 1#8, 2#8]).status = .running ∧
    decode (code 0xFFFD#64 [0x20#8, 1#8, 2#8]).cfg.opmap (code 0xFFFD#64 [0x20#8, 1#8, 2#8]).fetchWindow =
      .ok (.add 1#8 2#8, []) := ⟨rfl, rfl⟩

theorem witness_StepRunsTheInstructionInMemory :
    let s := code 0xFFF6#64 [0xE0#8, 5#8, 0x11#8, 0x22#8, 0x33#8, 0x44#8, 0x55#8, 0x66#8, 0x77#8, 0x88#8]
    let bs := encode s.cfg.opmap (.li 5#8 0x1122334455667788#64)
    s.status = .running ∧ (Instr.li 5#8 0x1122334455667788#64).wellFormed s.cfg.opmap = true ∧
    s.pc.toNat + bs.length ≤ s.cfg.memSize.toNat ∧
    ∀ k, k < bs.length → s.mem.read (s.pc.toNat + k) = bs.getD k 0#8 := by decide

/-- The five cases, each at the last or the first address it can have. -/
theorem witness_StepChecksInOrder :
    (let s := start 0x10000#64 [];
      s.status = .running ∧ s.cfg.memSize.toNat ≤ s.pc.toNat) ∧
    (let s := start 0xFFFF#64 [];
      s.status = .running ∧ s.pc.toNat < s.cfg.memSize.toNat ∧ s.mem.read s.pc.toNat = 0x00#8) ∧
    (let s := code 0xFFFF#64 [0xE1#8];
      s.status = .running ∧ s.pc.toNat < s.cfg.memSize.toNat ∧ s.mem.read s.pc.toNat ≠ 0x00#8 ∧
      s.cfg.opmap.lookup (s.mem.read s.pc.toNat) = none) ∧
    (let s := code 0xFFFE#64 [0x20#8, 1#8];
      s.status = .running ∧ s.mem.read s.pc.toNat ≠ 0x00#8 ∧
      s.cfg.opmap.lookup (s.mem.read s.pc.toNat) = some .add ∧
      s.pc.toNat < s.cfg.memSize.toNat ∧ s.cfg.memSize.toNat < s.pc.toNat + Op.add.cls.width) ∧
    (let s := code 0xFFFD#64 [0x20#8, 1#8, 2#8];
      s.status = .running ∧ s.mem.read s.pc.toNat ≠ 0x00#8 ∧
      s.cfg.opmap.lookup (s.mem.read s.pc.toNat) = some .add ∧
      s.pc.toNat + Op.add.cls.width ≤ s.cfg.memSize.toNat) := by decide

theorem witness_StepAnswersExactlyWhileRunning :
    State.reset.status = .running ∧ (State.reset.setStatus .halted).status ≠ .running ∧
    (State.reset.takeFault .divideByZero).status ≠ .running := by decide

/-- A step that halts, and one that faults (the address of the fault is not the program counter of the instruction). -/
theorem witness_StoppingStepsChangeOnlyTheStatus :
    step State.reset = .next (State.reset.setStatus .halted) ∧
    step (code 0xFFFE#64 [0x20#8, 1#8]) =
      .next ((code 0xFFFE#64 [0x20#8, 1#8]).takeFault (.addressFault 0x10000#64 .byte .fetch)) := ⟨rfl, rfl⟩

/-- A state with bytes listed at both ends of memory, and a state that has faulted. -/
theorem witness_EveryStepKeepsTheInvariant :
    (withBytes (code 0#64 [0xF0#8]) 0xFFFF [0x80#8]).Inv ∧
    (State.reset.takeFault .divideByZero).Inv ∧
    step (withBytes (code 0#64 [0xF0#8]) 0xFFFF [0x80#8]) =
      .next ((withBytes (code 0#64 [0xF0#8]) 0xFFFF [0x80#8]).setPc 1#64) := by
  refine ⟨⟨by decide, by decide, ?_⟩, ⟨by decide, by decide, ?_⟩, rfl⟩
  · intro r h
    cases h
  · rintro r ⟨⟩
    rfl

theorem witness_ConfigurationIsConstant :
    step State.reset = .next (State.reset.setStatus .halted) ∧
    Config.reference.ivtBase = some 0xF000#64 ∧
    Config.ivtBase { Config.reference with ivtBase := none } = none ∧
    Config.reference.stackTop = some 0x10000#64 ∧
    Config.stackTop { Config.reference with stackTop := none } = none := ⟨rfl, rfl, rfl, rfl, rfl⟩

theorem witness_PcAdvanceNeverWraps :
    (code 0xFFFD#64 [0x20#8, 1#8, 2#8]).fetchDecode = .ok (.add 1#8 2#8) := rfl

/-- NOP is none of the writers of a special register, so it meets every premise at once. -/
theorem witness_WritersOfTheSpecialRegisters :
    exec .nop State.reset = .next (State.reset.setPc 1#64) ∧
    (∀ a, Instr.nop ≠ .mtsp a) ∧ (∀ a, Instr.nop ≠ .push a) ∧ (∀ a, Instr.nop ≠ .pop a) ∧ Instr.nop ≠ .ret ∧
    (∀ a b, Instr.nop ≠ .bcl a b) ∧ (∀ a, Instr.nop ≠ .int a) ∧ (∀ a, Instr.nop ≠ .mtip a) ∧
    (∀ a b, Instr.nop ≠ .cmp a b) ∧ (∀ a b, Instr.nop ≠ .cmpu a b) ∧ (∀ a, Instr.nop ≠ .mtcr a) ∧
    Instr.nop ≠ .di ∧ Instr.nop ≠ .ei := by
  refine ⟨rfl, ?_, ?_, ?_, ?_, ?_, ?_, ?_, ?_, ?_, ?_, ?_, ?_⟩ <;> simp

theorem witness_WritersOfTheGeneralRegisters :
    exec (.lsm 1#8 3#8 9#8) State.reset = .next (after (.lsm 1#8 3#8 9#8) State.reset) ∧
    ¬ writesGpr (.lsm 1#8 3#8 9#8) 0#8 ∧ ¬ writesGpr (.lsm 1#8 3#8 9#8) 4#8 := by
  refine ⟨rfl, ?_, ?_⟩ <;> (unfold writesGpr; decide)

/-- The bytes next to the eight a push writes lie outside them. -/
theorem witness_StoresTouchOnlyTheirBytes :
    exec (.push 3#8) (State.reset.setSp 0x208#64) =
      .next (after (.push 3#8) (State.reset.setSp 0x208#64)) ∧
    storeSpan (.push 3#8) (State.reset.setSp 0x208#64) = some (0x200, 8) ∧
    storeSpan .nop State.reset = none := ⟨rfl, rfl, rfl⟩

theorem witness_OnlyTheSystemCallEmits :
    exec (.int 1#8) (start 0#64 [(0#8, 1#64), (1#8, 1#64)]) =
      .next (((start 0#64 [(0#8, 1#64), (1#8, 1#64)]).setPc 2#64).emit 1#8) := rfl

theorem witness_InterruptEnableIsUnobservable :
    agreeButIe State.reset (State.reset.setIe true) ∧ State.reset.ie ≠ (State.reset.setIe true).ie :=
  ⟨rfl, by decide⟩

/-- A run that ends in Halted within its fuel, one that ends in Faulted, and one whose fuel is too small. -/
theorem witness_RunsEndExactlyInAStoppedState :
    runToEnd 1 State.reset = .halted (State.reset.setStatus .halted) ∧
    runToEnd 7 (start 0x10000#64 []) =
      .faulted ⟨.addressFault 0x10000#64 .byte .fetch, 0x10000#64⟩
        ((start 0x10000#64 []).takeFault (.addressFault 0x10000#64 .byte .fetch)) ∧
    runToEnd 0 State.reset = .noEnd State.reset := ⟨rfl, rfl, rfl⟩

theorem witness_HaltStopsTheMachine :
    (State.reset.status = .running ∧ State.reset.pc.toNat < State.reset.cfg.memSize.toNat ∧
      State.reset.mem.read State.reset.pc.toNat = 0x00#8) ∧
    ((start 0x10000#64 []).status = .running ∧
      (start 0x10000#64 []).cfg.memSize.toNat ≤ (start 0x10000#64 []).pc.toNat) ∧
    (State.reset.setStatus .halted).status = .halted := by decide

/-- A pop fits up to `MEM_SIZE - 8` and not beyond. -/
theorem witness_RetPopsThePc :
    (State.reset.setSp 0xFFF8#64).canPop ∧ (State.reset.setSp 0#64).canPop ∧
    ¬ (State.reset.setSp 0xFFF9#64).canPop := by
  unfold State.canPop
  decide

/-- A push fits from `sp = 8` to `sp = MEM_SIZE`; from `sp = 7` its address wraps. -/
theorem witness_PushStoresBelowSp :
    (State.reset.setSp 8#64).canPush ∧ (State.reset.setSp 0x10000#64).canPush ∧
    ¬ (State.reset.setSp 7#64).canPush ∧ ¬ (State.reset.setSp 0x10001#64).canPush := by
  unfold State.canPush
  decide

theorem witness_PopLoadsFromSp :
    (State.reset.setSp 0xFFF8#64).canPop ∧ ¬ State.reset.canPop := by
  unfold State.canPop
  decide

theorem witness_PopAfterPushRestores :
    State.reset.canPush ∧ exec (.push 3#8) State.reset = .next (after (.push 3#8) State.reset) := by
  unfold State.canPush
  exact ⟨by decide, rfl⟩

/-- The number is 1 (with other bits above its low byte), with each answer of the selector. -/
theorem witness_IntNumberOneIsTheSystemCall :
    (let s := start 0#64 [(0#8, 1#64), (2#8, 0x101#64)];
      (s.reg 2#8).toNat % 256 = 1 ∧ s.callsEmit) ∧
    (let s := start 0#64 [(0#8, 0x101#64), (2#8, 1#64)];
      (s.reg 2#8).toNat % 256 = 1 ∧ ¬ s.callsEmit) := by
  unfold State.callsEmit
  decide

/-- Numbers 0, 2 and 255, the last entry that fits, the first that does not, and a push that does not fit. -/
theorem witness_IntEntersTheVector :
    (let s := (start 0#64 [(2#8, 255#64)]).setIp 0xF800#64;
      (s.reg 2#8).toNat % 256 ≠ 1 ∧ s.canPush ∧ s.vectorFits (lowByte (s.reg 2#8))) ∧
    (let s := (start 0#64 [(2#8, 0x100#64)]).setSp 7#64;
      (s.reg 2#8).toNat % 256 ≠ 1 ∧ ¬ s.canPush) ∧
    (let s := (start 0#64 [(2#8, 2#64)]).setIp 0xFFE9#64;
      (s.reg 2#8).toNat % 256 ≠ 1 ∧ s.canPush ∧ ¬ s.vectorFits (lowByte (s.reg 2#8))) := by
  unfold State.canPush State.vectorFits
  decide

/-- The pushed word lies just above the vector's entry. -/
theorem witness_RetReturnsFromAnInterrupt :
    let s := (start 0#64 [(2#8, 5#64)]).setSp 0xF038#64
    ((s.reg 2#8).toNat % 256 ≠ 1 ∧ s.canPush ∧ s.vectorFits (lowByte (s.reg 2#8)) ∧
      (s.vectorAddr (lowByte (s.reg 2#8))).toNat + 8 ≤ (s.sp - 8#64).toNat) ∧
    exec (.int 2#8) s = .next (after (.int 2#8) s) := by
  unfold State.canPush State.vectorFits
  exact ⟨by decide, rfl⟩

/-- The last byte of memory and the first beyond it, as an address to load and to store. -/
theorem witness_LbLoadsAByte_SbStoresAByte :
    (let s := start 0#64 [(1#8, 0xFFFF#64)];
      (s.reg 1#8).toNat < s.cfg.memSize.toNat) ∧
    (let s := start 0#64 [(1#8, 0x10000#64)];
      s.cfg.memSize.toNat ≤ (s.reg 1#8).toNat) := by decide

/-- The least, the greatest and equal values in each order, and each compare mode. -/
theorem witness_ComparesWriteTheFlag :
    (let s := start 0#64 [(1#8, 0x8000000000000000#64), (2#8, 0x7FFFFFFFFFFFFFFF#64)];
      (s.reg 1#8).toInt < (s.reg 2#8).toInt ∧ (s.reg 1#8).toNat > (s.reg 2#8).toNat ∧
      (s.reg 2#8).toInt > (s.reg 1#8).toInt ∧ (s.reg 2#8).toNat < (s.reg 1#8).toNat ∧
      s.reg 1#8 = s.reg 1#8 ∧ s.cfg.cmpCrUpdate = .intended) ∧
    (State.construct { Config.reference with cmpCrUpdate := .literalNoop }).cfg.cmpCrUpdate = .literalNoop ∧
    (State.construct { Config.reference with cmpCrUpdate := .literalAnd }).cfg.cmpCrUpdate = .literalAnd := by
  decide

theorem witness_BranchTestIsBitInclusion :
    State.reset.cfg.cmpCrUpdate = .intended ∧
    exec (.cmp 1#8 2#8) State.reset = .next (after (.cmp 1#8 2#8) State.reset) ∧
    exec (.cmpu 1#8 2#8) State.reset = .next (after (.cmpu 1#8 2#8) State.reset) ∧
    (0xA000000000000000#64 : Word).getLsbD 63 = true ∧ (0xA000000000000000#64 : Word).getLsbD 61 = true :=
  ⟨rfl, rfl, rfl, rfl, rfl⟩

/-- Taken (mask 0) and not taken, for BC, BCL and BAL; taken with a push that fits and one that does not. -/
theorem witness_BcBranchesOnTheMask_BclLinksOnTheStack_BalLinksInARegister :
    (let s := start 0#64 [(1#8, 1#64)];
      s.cr &&& s.reg 0#8 = s.reg 0#8 ∧ s.canPush ∧ s.cr &&& s.reg 1#8 ≠ s.reg 1#8) ∧
    (let s := (start 0#64 []).setSp 7#64;
      s.cr &&& s.reg 0#8 = s.reg 0#8 ∧ ¬ s.canPush) := by
  unfold State.canPush
  decide

/-- A zero divisor; the overflow; the dividends next to the overflow; quotient and remainder in one register or two. -/
theorem witness_DivQuotientAndRemainder_DivisionLaws :
    let s := start 0#64 [(1#8, 0x8000000000000000#64), (2#8, 0xFFFFFFFFFFFFFFFF#64), (3#8, 0x8000000000000001#64)]
    s.reg 0#8 = 0#64 ∧
    (s.reg 1#8 = 0x8000000000000000#64 ∧ s.reg 2#8 = 0xFFFFFFFFFFFFFFFF#64) ∧
    (s.reg 2#8 ≠ 0#64 ∧ ¬ (s.reg 3#8 = 0x8000000000000000#64 ∧ s.reg 2#8 = 0xFFFFFFFFFFFFFFFF#64)) ∧
    (3#8 : RegNum) ≠ 4#8 := by decide

theorem witness_DivuQuotientAndRemainder :
    (start 0#64 []).reg 1#8 = 0#64 ∧ (start 0#64 [(1#8, 0x8000000000000000#64)]).reg 1#8 ≠ 0#64 := by decide

/-- A descending range; the last word of memory and the first that does not fit; ranges of one register and of all. -/
theorem witness_LsmLoadsOneWordIntoTheRun_StmLeavesTheLastRegister_MsksStoresUnderTheMask :
    (2#8 : RegNum) < 3#8 ∧ (0#8 : RegNum) ≤ 255#8 ∧ (3#8 : RegNum) ≤ 3#8 ∧
    (let s := start 0#64 [(9#8, 0xFFF8#64)];
      (s.reg 9#8).toNat + 8 ≤ s.cfg.memSize.toNat) ∧
    (let s := start 0#64 [(9#8, 0xFFF9#64)];
      s.cfg.memSize.toNat < (s.reg 9#8).toNat + 8) := by decide

/-- LI at the first address its 10 bytes do not fit at, and at the last address of memory. -/
theorem witness_LiLoadsTheLiteral :
    (let s := code 0xFFF7#64 [0xE0#8, 5#8];
      s.status = .running ∧ s.pc.toNat < s.cfg.memSize.toNat ∧ s.mem.read s.pc.toNat ≠ 0x00#8 ∧
      s.cfg.opmap.lookup (s.mem.read s.pc.toNat) = some .li ∧ s.cfg.memSize.toNat < s.pc.toNat + 10) ∧
    (let s := code 0xFFFF#64 [0xE0#8];
      s.status = .running ∧ s.pc.toNat < s.cfg.memSize.toNat ∧ s.mem.read s.pc.toNat ≠ 0x00#8 ∧
      s.cfg.opmap.lookup (s.mem.read s.pc.toNat) = some .li ∧ s.cfg.memSize.toNat < s.pc.toNat + 10) := by decide

theorem witness_ByteAccesses_WordAccessesAreBigEndian :
    (0xFFFF#64 : Word).toNat < State.reset.cfg.memSize.toNat ∧
    State.reset.cfg.memSize.toNat ≤ (0x10000#64 : Word).toNat ∧
    (0xFFF8#64 : Word).toNat + 8 ≤ State.reset.cfg.memSize.toNat ∧
    State.reset.cfg.memSize.toNat < (0xFFF9#64 : Word).toNat + 8 := by decide

theorem witness_BytesInsideAWord :
    State.reset.storeWord 0xFFF8#64 0x0102030405060708#64 =
      .ok (State.reset.setMem (State.reset.mem.writeWord 0xFFF8 0x0102030405060708#64)) := rfl

theorem witness_StoresAreSeenByTheNextFetch :
    let s := start 0#64 [(1#8, 0xFFFF#64), (2#8, 0xF0#64)]
    exec (.sb 1#8 2#8) s = .next (after (.sb 1#8 2#8) s) ∧ (after (.sb 1#8 2#8) s).status = .running := ⟨rfl, rfl⟩

theorem witness_ResetValues :
    Config.reference.gprReset = .zero ∧ Config.reference.stackTop = some 0x10000#64 ∧
    Config.reference.ivtBase = some 0xF000#64 ∧
    Config.stackTop { Config.reference with stackTop := none } = none ∧
    Config.ivtBase { Config.reference with ivtBase := none } = none := ⟨rfl, rfl, rfl, rfl, rfl⟩

/-- A memory of two bytes: an image and a setup write that just fit, and each one byte too long. -/
theorem witness_LaunchBuildsMemory :
    let c := { Config.reference with memSize := 2#64 }
    c.legal = true ∧ [1#8, 2#8].length ≤ c.memSize.toNat ∧
    (∀ w ∈ [((1 : Nat), [3#8])], w.1 + w.2.length ≤ c.memSize.toNat) ∧
    c.memSize.toNat < [1#8, 2#8, 3#8].length ∧
    (∃ w ∈ [((1 : Nat), [3#8, 4#8])], w.2 ≠ [] ∧ c.memSize.toNat < w.1 + w.2.length) := by decide


end Sys2Proof.Tests
end

section
/-!
SUPPORT. The configuration under every operation and every step (rules R5 and R41); what the state built from a
configuration holds (rules R46 to R52); and what a launch answers (rules R62 and R350).
-/

namespace Sys2Proof.Machine

/-! ### What a rule, an instruction and a step can answer -/

/-- A sequence of two operations succeeds exactly when both do. -/
theorem bind_eq_ok_iff {α β : Type} {x : Except FaultCause α} {f : α → Except FaultCause β} {b : β} :
    (x >>= f) = .ok b ↔ ∃ a, x = .ok a ∧ f a = .ok b := by
  cases x with
  | error c => exact ⟨nofun, nofun⟩
  | ok a => exact ⟨fun h => ⟨a, rfl, h⟩, fun ⟨_, ha, h⟩ => by cases ha; exact h⟩

/-- A checked operation that succeeds has passed its check. -/
theorem guarded_eq_ok {α : Type} {b : Bool} {x y : α} {c : FaultCause}
    (h : (if b then Except.ok x else .error c) = .ok y) : b = true ∧ y = x := by
  split_ifs at h with hb
  exact ⟨hb, (Except.ok.inj h).symm⟩

/-- The next state of an instruction's frame: its rule's, or the state before it with a fault taken. -/
theorem runRule_next {k : OpClass} {s t : State} {rule : State → Except FaultCause State}
    (h : runRule k s rule = .next t) :
    rule (s.setPc (s.pc + BitVec.ofNat 64 k.width)) = .ok t ∨ ∃ c, t = s.takeFault c := by
  obtain ⟨u, hu, hn⟩ | ⟨c, -, hn⟩ := runRule_cases h
  · cases hn
    exact .inl hu
  · cases hn
    exact .inr ⟨c, rfl⟩

/-- The next state of a step: an instruction's, or the state before it with the fault of the fetch taken. -/
theorem step_next {s t : State} (h : step s = .next t) :
    (∃ i, exec i s = .next t) ∨ ∃ c, t = s.takeFault c := by
  cases hs : s.status with
  | halted => rw [step_halted hs] at h; cases h
  | faulted r => rw [step_faulted hs] at h; cases h
  | running =>
    cases hd : s.fetchDecode with
    | ok i => exact .inl ⟨i, step_running_ok hs hd ▸ h⟩
    | error c =>
      rw [step_running_error hs hd] at h
      cases h
      exact .inr ⟨c, rfl⟩

/-! ### The configuration is constant (rules R5 and R41) -/

section Cfg

variable {s t : State}

theorem storeByte_cfg {a : Word} {v : Byte} (h : s.storeByte a v = .ok t) : t.cfg = s.cfg := by
  obtain ⟨-, rfl⟩ := guarded_eq_ok ((storeByte_eq s a v).symm.trans h)
  rfl

theorem storeWord_cfg {a v : Word} (h : s.storeWord a v = .ok t) : t.cfg = s.cfg := by
  obtain ⟨-, rfl⟩ := guarded_eq_ok ((storeWord_eq s a v).symm.trans h)
  rfl

theorem push_cfg {v : Word} (h : s.push v = .ok t) : t.cfg = s.cfg := by
  obtain ⟨-, rfl⟩ := guarded_eq_ok ((push_eq s v).symm.trans h)
  rfl

theorem pop_cfg {p : Word × State} (h : s.pop = .ok p) : p.2.cfg = s.cfg := by
  obtain ⟨-, rfl⟩ := guarded_eq_ok ((pop_eq s).symm.trans h)
  rfl

theorem returnFrom_cfg (h : s.returnFrom = .ok t) : t.cfg = s.cfg := by
  obtain ⟨-, rfl⟩ := guarded_eq_ok ((returnFrom_eq s).symm.trans h)
  rfl

theorem enterInterrupt_cfg {n : Byte} (h : s.enterInterrupt n = .ok t) : t.cfg = s.cfg := by
  rw [enterInterrupt_eq] at h
  split_ifs at h
  cases h
  rfl

theorem raiseInterrupt_cfg {n : Byte} (h : s.raiseInterrupt n = .ok t) : t.cfg = s.cfg := by
  unfold State.raiseInterrupt at h
  split_ifs at h
  · obtain ⟨-, rfl⟩ := systemCall_cases s h
    rfl
  · exact enterInterrupt_cfg h

/-- An instruction whose rule keeps the configuration keeps it, also where the rule faults. -/
theorem runRule_cfg {k : OpClass} {rule : State → Except FaultCause State}
    (h : runRule k s rule = .next t) (hr : ∀ u, rule u = .ok t → t.cfg = u.cfg) : t.cfg = s.cfg := by
  obtain ht | ⟨c, rfl⟩ := runRule_next h
  · exact (hr _ ht).trans (setPc_cfg s _)
  · rfl

/-- An instruction whose rule never faults keeps the configuration if its update does. -/
theorem runRule_ok_cfg {k : OpClass} {f : State → State}
    (h : runRule k s (fun u => .ok (f u)) = .next t) (hf : ∀ u, (f u).cfg = u.cfg) : t.cfg = s.cfg :=
  runRule_cfg h fun u hu => Except.ok.inj hu ▸ hf u

/-- No instruction changes the configuration. -/
theorem exec_cfg {i : Instr} (h : exec i s = .next t) : t.cfg = s.cfg := by
  unfold exec at h
  cases i with
  | halt =>
    cases h
    rfl
  | nop | di | ei | mfpc | mfsp | mfip | mfcr | not | mtsp | mtip | mtcr | mov | add | addu | sub | subu | mul | mulu
  | and | or | xor | shl | shr | cmp | cmpu | mskr | li =>
    exact runRule_ok_cfg h fun _ => rfl
  | bc | bal =>
    refine runRule_ok_cfg h fun u => ?_
    split <;> rfl
  | ret => exact runRule_cfg h fun _ => returnFrom_cfg
  | push => exact runRule_cfg h fun _ => push_cfg
  | int => exact runRule_cfg h fun _ => raiseInterrupt_cfg
  | sb => exact runRule_cfg h fun _ => storeByte_cfg
  | pop =>
    refine runRule_cfg h fun u hu => ?_
    obtain ⟨p, hp, ht⟩ := bind_eq_ok_iff.1 hu
    cases ht
    exact pop_cfg hp
  | lb =>
    refine runRule_cfg h fun u hu => ?_
    obtain ⟨v, -, ht⟩ := bind_eq_ok_iff.1 hu
    cases ht
    rfl
  | lsm =>
    refine runRule_cfg h fun u hu => ?_
    dsimp only at hu
    split_ifs at hu
    · cases hu
    · obtain ⟨v, -, ht⟩ := bind_eq_ok_iff.1 hu
      cases ht
      exact setRegs_cfg u _ v
  | bcl =>
    refine runRule_cfg h fun u hu => ?_
    split_ifs at hu
    · obtain ⟨p, hp, ht⟩ := bind_eq_ok_iff.1 hu
      cases ht
      exact (setPc_cfg p _).trans (push_cfg hp)
    · cases hu
      rfl
  | div | divu =>
    refine runRule_cfg h fun u hu => ?_
    split_ifs at hu
    cases hu
    rfl
  | stm =>
    refine runRule_cfg h fun u hu => ?_
    dsimp only at hu
    split_ifs at hu
    · cases hu
    · obtain ⟨-, -, ht⟩ := bind_eq_ok_iff.1 hu
      cases ht
      rfl
  | msks =>
    refine runRule_cfg h fun u hu => ?_
    obtain ⟨old, -, hv⟩ := bind_eq_ok_iff.1 hu
    exact storeWord_cfg hv

/-- No step changes the configuration. -/
theorem step_cfg (h : step s = .next t) : t.cfg = s.cfg := by
  obtain ⟨i, hi⟩ | ⟨c, rfl⟩ := step_next h
  · exact exec_cfg hi
  · rfl

end Cfg

/-! ### The state built from a configuration (rules R46 to R52) -/

section Construct

variable (c : Config)

@[simp] theorem construct_cfg : (State.construct c).cfg = c := rfl
@[simp] theorem construct_pc : (State.construct c).pc = 0#64 := rfl
@[simp] theorem construct_sp : (State.construct c).sp = c.stackTopValue := rfl
@[simp] theorem construct_ip : (State.construct c).ip = c.ivtBaseValue := rfl
@[simp] theorem construct_cr : (State.construct c).cr = 0#64 := rfl
@[simp] theorem construct_ie : (State.construct c).ie = false := rfl
@[simp] theorem construct_mem : (State.construct c).mem = [] := rfl
@[simp] theorem construct_out : (State.construct c).out = [] := rfl
@[simp] theorem construct_status : (State.construct c).status = .running := rfl

variable {c}

/-- The stack top that is given (rule R48). -/
theorem stackTopValue_of_some {v : Word} (h : c.stackTop = some v) : c.stackTopValue = v := by
  simp [Config.stackTopValue, h]

/-- The default of the stack top (rules R5 and R48). -/
theorem stackTopValue_of_none (h : c.stackTop = none) : c.stackTopValue = c.memSize := by
  simp [Config.stackTopValue, h]

/-- The vector base that is given (rule R49). -/
theorem ivtBaseValue_of_some {v : Word} (h : c.ivtBase = some v) : c.ivtBaseValue = v := by
  simp [Config.ivtBaseValue, h]

/-- The default of the vector base (rules R5 and R49). -/
theorem ivtBaseValue_of_none (h : c.ivtBase = none) :
    c.ivtBaseValue = c.stackTopValue - 8#64 * c.stackWords := by
  simp [Config.ivtBaseValue, h]

end Construct

/-! ### The launch (rules R62 and R350) -/

section Launch

variable {c : Config} {img : List Byte} {setup : List SetupWrite}

/-- The reference configuration is legal (rules R5 and R6). -/
theorem referenceConfig_legal : Config.reference.legal = true := by
  rw [Config.legal, Bool.and_eq_true]
  exact ⟨by decide, OpMap.reference_legal⟩

/-- Every setup write stays inside memory (rule R62). -/
theorem all_setupFits_iff :
    setup.all (setupFits c) = true ↔ ∀ w ∈ setup, w.1 + w.2.length ≤ c.memSize.toNat := by
  simp [setupFits]

/-- A launch whose parts all fit builds the state of the run. -/
theorem launch_of_fits (hc : c.legal = true) (himg : img.length ≤ c.memSize.toNat)
    (hset : ∀ w ∈ setup, w.1 + w.2.length ≤ c.memSize.toNat) :
    launch c img setup = .next ((State.construct c).setMem (launchMemory img setup)) := by
  simp [launch, hc, Nat.not_lt.2 himg, all_setupFits_iff.2 hset]

/-- An image longer than memory refuses the launch. -/
theorem launch_of_image_too_long (hc : c.legal = true) (himg : c.memSize.toNat < img.length) :
    launch c img setup = .refused .imageTooLong := by
  simp [launch, hc, himg]

/-- A setup write that does not stay inside memory refuses the launch, if the image fits. -/
theorem launch_of_setup_outside (hc : c.legal = true) (himg : img.length ≤ c.memSize.toNat) {w : SetupWrite}
    (hw : w ∈ setup) (hout : c.memSize.toNat < w.1 + w.2.length) :
    launch c img setup = .refused .setupOutsideMemory := by
  have hall : setup.all (setupFits c) = false :=
    Bool.eq_false_iff.2 fun h => Nat.not_le.2 hout (all_setupFits_iff.1 h w hw)
  simp [launch, hc, Nat.not_lt.2 himg, hall]

/-- The setup write covers the address. -/
def covers (p : Nat) (w : SetupWrite) : Bool := w.1 ≤ p && p < w.1 + w.2.length

/-- With no setup write, memory is the image alone. -/
@[simp] theorem launchMemory_nil : launchMemory img [] = Memory.writeBytes [] 0 img := rfl

/-- The last setup write goes on top of what the others left. -/
@[simp] theorem launchMemory_append_singleton (w : SetupWrite) :
    launchMemory img (setup ++ [w]) = (launchMemory img setup).writeBytes w.1 w.2 := by
  simp [launchMemory]

/-- A byte of the image alone: zero beyond its end. -/
theorem image_read (p : Nat) : (Memory.writeBytes [] 0 img).read p = img.getD p 0#8 := by
  rw [Memory.read_writeBytes, Nat.zero_add, Nat.sub_zero, Memory.read_nil]
  split_ifs with h
  · rfl
  · have hp : img.length ≤ p := by omega
    exact (List.getD_eq_default _ _ hp).symm

/-- A byte at the start of a run: the last setup write that covers it, or else the image's (rule R62). -/
theorem launchMemory_read (p : Nat) :
    (launchMemory img setup).read p =
      (setup.reverse.find? (covers p)).elim (img.getD p 0#8) fun w => w.2.getD (p - w.1) 0#8 := by
  induction setup using List.reverseRecOn with
  | nil => exact image_read p
  | append_singleton setup w ih =>
    rw [launchMemory_append_singleton, Memory.read_writeBytes, List.reverse_append, List.reverse_singleton,
      List.singleton_append, List.find?_cons]
    by_cases h : w.1 ≤ p ∧ p < w.1 + w.2.length
    · have hw : covers p w = true := by simpa [covers] using h
      rw [if_pos h, hw]
      rfl
    · have hw : covers p w = false := by simpa [covers] using h
      rw [if_neg h, hw]
      exact ih

/-- Memory at the start of a run has the canonical form. -/
theorem launchMemory_wf : (launchMemory img setup).wf := by
  induction setup using List.reverseRecOn with
  | nil => exact Memory.writeBytes_wf _ 0 img Memory.nil_wf
  | append_singleton setup w ih =>
    rw [launchMemory_append_singleton]
    exact Memory.writeBytes_wf _ w.1 w.2 ih

/-- Memory at the start of a run lists no address beyond a bound that the image and the setup writes keep. -/
theorem launchMemory_inside {n : Nat} (himg : img.length ≤ n) (hset : ∀ w ∈ setup, w.1 + w.2.length ≤ n) :
    ∀ cell ∈ launchMemory img setup, cell.1 < n := by
  induction setup using List.reverseRecOn with
  | nil => exact Memory.writeBytes_inside [] 0 n img (by omega) nofun
  | append_singleton setup w ih =>
    rw [launchMemory_append_singleton]
    exact Memory.writeBytes_inside _ w.1 n w.2 (hset w (by simp)) (ih fun v hv => hset v (by simp [hv]))

/-- The launched state meets the invariant. -/
theorem launched_inv (himg : img.length ≤ c.memSize.toNat)
    (hset : ∀ w ∈ setup, w.1 + w.2.length ≤ c.memSize.toNat) :
    ((State.construct c).setMem (launchMemory img setup)).Inv where
  memWf := launchMemory_wf
  memInside := launchMemory_inside himg hset
  faultPc := nofun

end Launch

/-! ### The obligations -/

/-- Settles O14: an instruction's frame, a fault and every shared operation keep the configuration, so a step does; the
reset values are the parameters, or their defaults. -/
theorem configurationIsConstant : Obligations.ConfigurationIsConstant :=
  ⟨fun _ _ => step_cfg, construct_cfg, fun _ _ => stackTopValue_of_some, fun _ => stackTopValue_of_none,
    fun _ _ => ivtBaseValue_of_some, fun _ => ivtBaseValue_of_none⟩

/-- Settles O60: memory is read off by induction on the setup writes from the last one back, and the refusals follow the
order of the launch's checks. -/
theorem launchBuildsMemory : Obligations.LaunchBuildsMemory := by
  intro c img setup hc
  refine ⟨fun himg hset => ?_, fun himg => ⟨_, launch_of_image_too_long hc himg⟩, ?_⟩
  · refine ⟨_, launch_of_fits hc himg hset, rfl, rfl, rfl, launched_inv himg hset, fun _ => rfl,
      ⟨rfl, rfl, rfl, rfl⟩, ⟨rfl, rfl, rfl⟩, fun p => ?_⟩
    rw [setMem_mem, launchMemory_read]
    unfold covers
    cases setup.reverse.find? fun w => w.1 ≤ p && p < w.1 + w.2.length <;> rfl
  · rintro ⟨w, hw, -, hout⟩
    rcases Nat.lt_or_ge c.memSize.toNat img.length with himg | himg
    · exact ⟨_, launch_of_image_too_long hc himg⟩
    · exact ⟨_, launch_of_setup_outside hc himg hw hout⟩

/-- Settles O59: the reference configuration is legal, so its launch with nothing loaded is not refused; the other
values are those of the state built from a configuration. -/
theorem resetValues : Obligations.ResetValues := by
  refine ⟨⟨rfl, rfl, rfl, rfl, ?_⟩, fun c => ⟨construct_reg_zero c, construct_pc c,
    fun _ => stackTopValue_of_some, stackTopValue_of_none, fun _ => ivtBaseValue_of_some, ivtBaseValue_of_none,
    construct_cr c, construct_ie c, construct_status c, construct_out c, fun a => ?_⟩⟩
  · exact launch_of_fits referenceConfig_legal (Nat.zero_le _) nofun
  · rw [construct_mem, Memory.read_nil]
    rfl

end Sys2Proof.Machine
end

section
/-!
SUPPORT. What one instruction can do to the state, said once (`Effect`): the updates it is built from, each under the
condition on which the instruction may make it. Its frame and the invariant are inductions over the updates.
-/

namespace Sys2Proof.Machine

/-! ### The updates an instruction may make -/

/-- The instructions that may write `sp` (rule R29). -/
inductive WritesSp : Instr → Prop
  | mtsp (a : RegNum) : WritesSp (.mtsp a)
  | push (a : RegNum) : WritesSp (.push a)
  | pop (a : RegNum) : WritesSp (.pop a)
  | ret : WritesSp .ret
  | bcl (a b : RegNum) : WritesSp (.bcl a b)
  | int (a : RegNum) : WritesSp (.int a)

/-- The instructions that may write `ip` (rule R30). -/
inductive WritesIp : Instr → Prop
  | mtip (a : RegNum) : WritesIp (.mtip a)

/-- The instructions that may write `cr` (rule R33). -/
inductive WritesCr : Instr → Prop
  | cmp (a b : RegNum) : WritesCr (.cmp a b)
  | cmpu (a b : RegNum) : WritesCr (.cmpu a b)
  | mtcr (a : RegNum) : WritesCr (.mtcr a)

/-- The instructions that may write `ie` (rule R34). -/
inductive WritesIe : Instr → Prop
  | di : WritesIe .di
  | ei : WritesIe .ei

/-- The instruction is the system call (rules R43 and R302): INT, and the number in its register is 1. -/
def callsSystem (i : Instr) (s : State) : Prop := ∃ a, i = .int a ∧ lowByte (s.reg a) = 1#8

/-- The states that instruction `i`, begun in `s`, can build by its updates. Each constructor is one update and the
condition it needs; a store stays inside memory, and at most one byte is emitted. -/
inductive Effect (i : Instr) (s : State) : State → Prop
  | refl : Effect i s s
  | setPc {t} (v : Word) : Effect i s t → Effect i s (t.setPc v)
  | setReg {t} (r : RegNum) (v : Word) : writesGpr i r → Effect i s t → Effect i s (t.setReg r v)
  | setSp {t} (v : Word) : WritesSp i → Effect i s t → Effect i s (t.setSp v)
  | setIp {t} (v : Word) : WritesIp i → Effect i s t → Effect i s (t.setIp v)
  | setCr {t} (v : Word) : WritesCr i → Effect i s t → Effect i s (t.setCr v)
  | setIe {t} (b : Bool) : WritesIe i → Effect i s t → Effect i s (t.setIe b)
  | store {t} (a : Nat) (bs : List Byte) : a + bs.length ≤ t.cfg.memSize.toNat → Effect i s t →
      Effect i s (t.setMem (t.mem.writeBytes a bs))
  | emit {t} (b : Byte) : callsSystem i s → t.out = s.out → Effect i s t → Effect i s (t.emit b)

/-! ### What the updates leave unchanged -/

namespace Effect

variable {i : Instr} {s t : State} (h : Effect i s t)
include h

/-- The run status is not among the updates: only HALT and a fault write it (rule R35). -/
theorem status : t.status = s.status := by
  induction h with
  | refl => rfl
  | setPc _ _ ih | setReg _ _ _ _ ih | setSp _ _ _ ih | setIp _ _ _ ih | setCr _ _ _ ih | setIe _ _ _ ih
  | store _ _ _ _ ih | emit _ _ _ _ ih => exact ih

/-- A general register the instruction does not write holds what it held (rule R23). -/
theorem reg {r : RegNum} (hr : ¬ writesGpr i r) : t.reg r = s.reg r := by
  induction h with
  | refl => rfl
  | setReg q v hq _ ih =>
    have hne : r ≠ q := fun e => hr (e ▸ hq)
    exact (setReg_reg_of_ne _ q r v hne).trans ih
  | setPc _ _ ih | setSp _ _ _ ih | setIp _ _ _ ih | setCr _ _ _ ih | setIe _ _ _ ih
  | store _ _ _ _ ih | emit _ _ _ _ ih => exact ih

/-- `sp` is written by its writers only (rule R29). -/
theorem sp (hi : ¬ WritesSp i) : t.sp = s.sp := by
  induction h with
  | refl => rfl
  | setSp _ hw => exact absurd hw hi
  | setPc _ _ ih | setReg _ _ _ _ ih | setIp _ _ _ ih | setCr _ _ _ ih | setIe _ _ _ ih
  | store _ _ _ _ ih | emit _ _ _ _ ih => exact ih

/-- `ip` is written by its writer only (rule R30). -/
theorem ip (hi : ¬ WritesIp i) : t.ip = s.ip := by
  induction h with
  | refl => rfl
  | setIp _ hw => exact absurd hw hi
  | setPc _ _ ih | setReg _ _ _ _ ih | setSp _ _ _ ih | setCr _ _ _ ih | setIe _ _ _ ih
  | store _ _ _ _ ih | emit _ _ _ _ ih => exact ih

/-- `cr` is written by its writers only (rule R33). -/
theorem cr (hi : ¬ WritesCr i) : t.cr = s.cr := by
  induction h with
  | refl => rfl
  | setCr _ hw => exact absurd hw hi
  | setPc _ _ ih | setReg _ _ _ _ ih | setSp _ _ _ ih | setIp _ _ _ ih | setIe _ _ _ ih
  | store _ _ _ _ ih | emit _ _ _ _ ih => exact ih

/-- `ie` is written by its writers only (rule R34). -/
theorem ie (hi : ¬ WritesIe i) : t.ie = s.ie := by
  induction h with
  | refl => rfl
  | setIe _ hw => exact absurd hw hi
  | setPc _ _ ih | setReg _ _ _ _ ih | setSp _ _ _ ih | setIp _ _ _ ih | setCr _ _ _ ih
  | store _ _ _ _ ih | emit _ _ _ _ ih => exact ih

/-- The output port is as it was, or the system call has put one byte at its end (rule R43). -/
theorem out : t.out = s.out ∨ callsSystem i s ∧ ∃ b, t.out = s.out ++ [b] := by
  induction h with
  | refl => exact .inl rfl
  | emit b hc ho => exact .inr ⟨hc, b, congrArg (· ++ [b]) ho⟩
  | setPc _ _ ih | setReg _ _ _ _ ih | setSp _ _ _ ih | setIp _ _ _ ih | setCr _ _ _ ih | setIe _ _ _ ih
  | store _ _ _ _ ih => exact ih

/-- Memory keeps its canonical form (log entry 8). -/
theorem mem_wf (hm : s.mem.wf) : t.mem.wf := by
  induction h with
  | refl => exact hm
  | store a bs _ _ ih => exact Memory.writeBytes_wf _ a bs ih
  | setPc _ _ ih | setReg _ _ _ _ ih | setSp _ _ _ ih | setIp _ _ _ ih | setCr _ _ _ ih | setIe _ _ _ ih
  | emit _ _ _ _ ih => exact ih

/-- Memory lists addresses below the memory size only (rule R60). -/
theorem mem_inside (hm : ∀ c ∈ s.mem, c.1 < s.cfg.memSize.toNat) : ∀ c ∈ t.mem, c.1 < t.cfg.memSize.toNat := by
  induction h with
  | refl => exact hm
  | store a bs hb _ ih => exact Memory.writeBytes_inside _ a _ bs hb ih
  | setPc _ _ ih | setReg _ _ _ _ ih | setSp _ _ _ ih | setIp _ _ _ ih | setCr _ _ _ ih | setIe _ _ _ ih
  | emit _ _ _ _ ih => exact ih

end Effect

/-! ### The shared operations are built from these updates -/

section Operations

variable {i : Instr} {s t u : State}

theorem storeByte_effect {a : Word} {v : Byte} (hu : Effect i s u) (h : u.storeByte a v = .ok t) :
    Effect i s t := by
  obtain ⟨hf, rfl⟩ := guarded_eq_ok ((storeByte_eq u a v).symm.trans h)
  exact hu.store a.toNat [v] ((fits_byte u a).1 hf)

theorem storeWord_effect {a v : Word} (hu : Effect i s u) (h : u.storeWord a v = .ok t) : Effect i s t := by
  obtain ⟨hf, rfl⟩ := guarded_eq_ok ((storeWord_eq u a v).symm.trans h)
  exact hu.store a.toNat (beBytes v) ((fits_word u a).1 hf)

theorem push_effect {v : Word} (hi : WritesSp i) (hu : Effect i s u) (h : u.push v = .ok t) : Effect i s t := by
  obtain ⟨w, hw, ht⟩ := bind_eq_ok_iff.1 h
  cases ht
  exact (storeWord_effect hu hw).setSp _ hi

theorem pop_effect {p : Word × State} (hi : WritesSp i) (hu : Effect i s u) (h : u.pop = .ok p) :
    Effect i s p.2 := by
  obtain ⟨-, rfl⟩ := guarded_eq_ok ((pop_eq u).symm.trans h)
  exact hu.setSp _ hi

theorem returnFrom_effect (hi : WritesSp i) (hu : Effect i s u) (h : u.returnFrom = .ok t) : Effect i s t := by
  obtain ⟨p, hp, ht⟩ := bind_eq_ok_iff.1 h
  cases ht
  exact (pop_effect hi hu hp).setPc _

theorem enterInterrupt_effect {n : Byte} (hi : WritesSp i) (hu : Effect i s u) (h : u.enterInterrupt n = .ok t) :
    Effect i s t := by
  obtain ⟨w, hw, h⟩ := bind_eq_ok_iff.1 h
  obtain ⟨v, -, ht⟩ := bind_eq_ok_iff.1 h
  cases ht
  exact (push_effect hi hu hw).setPc v

/-- An interrupt emits one byte if it is the system call, and enters its handler if not (rule R301). -/
theorem raiseInterrupt_effect {n : Byte} (hi : WritesSp i) (hn : n = 1#8 → callsSystem i s) (ho : u.out = s.out)
    (hu : Effect i s u) (h : u.raiseInterrupt n = .ok t) : Effect i s t := by
  unfold State.raiseInterrupt at h
  split_ifs at h with h1
  · obtain ⟨-, rfl⟩ := systemCall_cases u h
    exact hu.emit _ (hn h1) ho
  · exact enterInterrupt_effect hi hu h

theorem setRegs_effect {rs : List RegNum} (v : Word) (hi : ∀ r ∈ rs, writesGpr i r) (hu : Effect i s u) :
    Effect i s (u.setRegs rs v) := by
  induction rs generalizing u with
  | nil => exact hu
  | cons r rs ih =>
    obtain ⟨hr, hrs⟩ := List.forall_mem_cons.1 hi
    exact ih hrs (hu.setReg r v hr)

/-- A run of registers stored to one word that fits is a run of stores (rule R225). -/
theorem storeRun_effect {a : Word} (rs : List RegNum) (hf : u.fits a .word = true) (hu : Effect i s u) :
    Effect i s (u.setMem (u.storeRun a.toNat rs)) := by
  induction rs using List.reverseRecOn with
  | nil => exact hu
  | append_singleton rs r ih =>
    have hlast := ih.store a.toNat (beBytes (u.reg r)) ((fits_word (u.setMem (u.storeRun a.toNat rs)) a).1 hf)
    unfold State.storeRun at hlast ⊢
    rw [List.foldl_append]
    exact hlast

/-- An instruction's rule that is built from the updates ends in them, or in the fault it raised. -/
theorem runRule_effect {k : OpClass} {rule : State → Except FaultCause State} (h : runRule k s rule = .next t)
    (hr : ∀ v, rule (s.setPc v) = .ok t → Effect i s t) : Effect i s t ∨ ∃ c, t = s.takeFault c :=
  (runRule_next h).imp_left (hr _)

/-- An instruction's rule that never faults ends in the updates it is. -/
theorem runRule_ok_effect {k : OpClass} {f : State → State} (h : runRule k s (fun u => .ok (f u)) = .next t)
    (hf : ∀ v, Effect i s (f (s.setPc v))) : Effect i s t ∨ ∃ c, t = s.takeFault c :=
  runRule_effect h fun v hv => Except.ok.inj hv ▸ hf v

end Operations

/-! ### Every instruction is built from these updates -/

section Exec

variable {i : Instr} {s t : State}

/-- The program counter has advanced; nothing else was written. -/
theorem Effect.advanced (v : Word) : Effect i s (s.setPc v) := .setPc v .refl

/-- HALT only stops the machine; every other instruction ends in its updates, or in the state before it with the fault
it raised taken (rules R120 and R311). -/
theorem exec_effect (h : exec i s = .next t) :
    Effect i s t ∨ (i = .halt ∧ t = s.setStatus .halted) ∨ ∃ c, t = s.takeFault c := by
  by_cases hi : i = .halt
  · subst hi
    cases h
    exact .inr (.inl ⟨rfl, rfl⟩)
  refine Or.imp_right .inr ?_
  unfold exec at h
  cases i with
  | halt => exact absurd rfl hi
  | nop => exact runRule_ok_effect h .advanced
  | di => exact runRule_ok_effect h fun v => (Effect.advanced v).setIe _ .di
  | ei => exact runRule_ok_effect h fun v => (Effect.advanced v).setIe _ .ei
  | mfpc | mfsp | mfip | mfcr | not | mov | add | addu | sub | subu | mul | mulu | and | or | xor | shl | shr | mskr
  | li => exact runRule_ok_effect h fun v => .setReg _ _ rfl (.advanced v)
  | mtsp a => exact runRule_ok_effect h fun v => (Effect.advanced v).setSp _ (.mtsp a)
  | mtip a => exact runRule_ok_effect h fun v => (Effect.advanced v).setIp _ (.mtip a)
  | mtcr a => exact runRule_ok_effect h fun v => (Effect.advanced v).setCr _ (.mtcr a)
  | cmp a b => exact runRule_ok_effect h fun v => (Effect.advanced v).setCr _ (.cmp a b)
  | cmpu a b => exact runRule_ok_effect h fun v => (Effect.advanced v).setCr _ (.cmpu a b)
  | bc =>
    refine runRule_ok_effect h fun v => ?_
    split_ifs
    · exact (Effect.advanced v).setPc _
    · exact .advanced v
  | bal =>
    refine runRule_ok_effect h fun v => ?_
    split_ifs
    · exact .setPc _ (.setReg _ _ rfl (.advanced v))
    · exact .advanced v
  | ret => exact runRule_effect h fun v => returnFrom_effect .ret (.advanced v)
  | push a => exact runRule_effect h fun v => push_effect (.push a) (.advanced v)
  | int a => exact runRule_effect h fun v => raiseInterrupt_effect (.int a) (⟨a, rfl, ·⟩) rfl (.advanced v)
  | sb => exact runRule_effect h fun v => storeByte_effect (.advanced v)
  | pop a =>
    refine runRule_effect h fun v hv => ?_
    obtain ⟨p, hp, ht⟩ := bind_eq_ok_iff.1 hv
    cases ht
    exact (pop_effect (.pop a) (.advanced v) hp).setReg a _ rfl
  | lb a =>
    refine runRule_effect h fun v hv => ?_
    obtain ⟨b, -, ht⟩ := bind_eq_ok_iff.1 hv
    cases ht
    exact (Effect.advanced v).setReg a _ rfl
  | bcl a b =>
    refine runRule_effect h fun v hv => ?_
    split_ifs at hv
    · obtain ⟨w, hw, ht⟩ := bind_eq_ok_iff.1 hv
      cases ht
      exact (push_effect (.bcl a b) (.advanced v) hw).setPc _
    · cases hv
      exact .advanced v
  | div | divu =>
    refine runRule_effect h fun v hv => ?_
    split_ifs at hv
    cases hv
    exact .setReg _ _ (Or.inr rfl) (.setReg _ _ (Or.inl rfl) (.advanced v))
  | lsm a b =>
    refine runRule_effect h fun v hv => ?_
    dsimp only at hv
    split_ifs at hv
    · cases hv
    · obtain ⟨w, -, ht⟩ := bind_eq_ok_iff.1 hv
      cases ht
      exact setRegs_effect w (fun r => (mem_regRun a b r).1) (.advanced v)
  | stm a b =>
    refine runRule_effect h fun v hv => ?_
    dsimp only at hv
    split_ifs at hv
    · cases hv
    · obtain ⟨⟨⟩, hf, ht⟩ := bind_eq_ok_iff.1 hv
      cases ht
      exact storeRun_effect (regRun a b) (guarded_eq_ok hf).1 (.advanced v)
  | msks =>
    refine runRule_effect h fun v hv => ?_
    obtain ⟨old, -, hw⟩ := bind_eq_ok_iff.1 hv
    exact storeWord_effect (.advanced v) hw

end Exec

/-! ### The invariant -/

section Invariant

variable {s t : State}

/-- Only a running machine takes a step (rules R35 and R45). -/
theorem running_of_step_next (h : step s = .next t) : s.status = .running := by
  cases hs : s.status with
  | running => rfl
  | halted => rw [step_halted hs] at h; cases h
  | faulted r => rw [step_faulted hs] at h; cases h

/-- The updates of an instruction keep the invariant of a running machine. -/
theorem Effect.inv {i : Instr} (h : Effect i s t) (hr : s.status = .running) (hs : s.Inv) : t.Inv where
  memWf := h.mem_wf hs.memWf
  memInside := h.mem_inside hs.memInside
  faultPc r hf := by
    rw [h.status, hr] at hf
    cases hf

/-- Stopping with no error keeps the invariant. -/
theorem setStatus_halted_inv (hs : s.Inv) : (s.setStatus .halted).Inv where
  memWf := hs.memWf
  memInside := hs.memInside
  faultPc := nofun

/-- Taking a fault keeps the invariant: its record names the program counter (rule R314). -/
theorem takeFault_inv (c : FaultCause) (hs : s.Inv) : (s.takeFault c).Inv where
  memWf := hs.memWf
  memInside := hs.memInside
  faultPc r hf := by
    cases hf
    rfl

end Invariant

/-- Settles O12: only a running machine steps, and then the instruction's updates, halting and a fault each keep the
invariant. -/
theorem everyStepKeepsTheInvariant : Obligations.EveryStepKeepsTheInvariant := by
  intro s t hs h
  have hr : s.status = .running := running_of_step_next h
  obtain ⟨i, hi⟩ | ⟨c, rfl⟩ := step_next h
  · obtain he | ⟨-, rfl⟩ | ⟨c, rfl⟩ := exec_effect hi
    · exact he.inv hr hs
    · exact setStatus_halted_inv hs
    · exact takeFault_inv c hs
  · exact takeFault_inv c hs

/-! ### The writers of each register, and the output port -/

section Writers

variable {i : Instr} {s t : State}

/-- A component of the state that neither the instruction's updates nor a write of the run status can change is
unchanged after the instruction. -/
theorem exec_frame {α : Type} (f : State → α) (h : exec i s = .next t) (he : Effect i s t → f t = f s)
    (hst : ∀ st, f (s.setStatus st) = f s) : f t = f s := by
  obtain hu | ⟨-, rfl⟩ | ⟨c, rfl⟩ := exec_effect h
  · exact he hu
  · exact hst _
  · exact hst _

/-- An instruction that is none of the writers of `sp` leaves it (rule R29). -/
theorem exec_sp (h : exec i s = .next t) (hi : ¬ WritesSp i) : t.sp = s.sp :=
  exec_frame State.sp h (·.sp hi) fun _ => rfl

/-- An instruction that is not the writer of `ip` leaves it (rule R30). -/
theorem exec_ip (h : exec i s = .next t) (hi : ¬ WritesIp i) : t.ip = s.ip :=
  exec_frame State.ip h (·.ip hi) fun _ => rfl

/-- An instruction that is none of the writers of `cr` leaves it (rule R33). -/
theorem exec_cr (h : exec i s = .next t) (hi : ¬ WritesCr i) : t.cr = s.cr :=
  exec_frame State.cr h (·.cr hi) fun _ => rfl

/-- An instruction that is none of the writers of `ie` leaves it (rule R34). -/
theorem exec_ie (h : exec i s = .next t) (hi : ¬ WritesIe i) : t.ie = s.ie :=
  exec_frame State.ie h (·.ie hi) fun _ => rfl

/-- An instruction leaves every general register that it does not write (rule R23). -/
theorem exec_reg {r : RegNum} (h : exec i s = .next t) (hr : ¬ writesGpr i r) : t.reg r = s.reg r :=
  exec_frame (State.reg · r) h (·.reg hr) fun _ => rfl

end Writers

/-- Settles O16: each register is written by its writers alone, and the premises exclude each of them. -/
theorem writersOfTheSpecialRegisters : Obligations.WritersOfTheSpecialRegisters := by
  intro i s t h
  refine ⟨fun hmtsp hpush hpop hret hbcl hint => exec_sp h ?_, fun hmtip => exec_ip h ?_,
    fun hcmp hcmpu hmtcr => exec_cr h ?_, fun hdi hei => exec_ie h ?_⟩
  · rintro (a | a | a | _ | ⟨a, b⟩ | a)
    exacts [hmtsp a rfl, hpush a rfl, hpop a rfl, hret rfl, hbcl a b rfl, hint a rfl]
  · rintro ⟨a⟩
    exact hmtip a rfl
  · rintro (⟨a, b⟩ | ⟨a, b⟩ | a)
    exacts [hcmp a b rfl, hcmpu a b rfl, hmtcr a rfl]
  · rintro (_ | _)
    exacts [hdi rfl, hei rfl]

/-- Settles O17: a general register that the instruction does not write is in none of its updates. -/
theorem writersOfTheGeneralRegisters : Obligations.WritersOfTheGeneralRegisters :=
  fun _ _ _ _ => exec_reg

/-- Settles O19: the updates emit one byte at most, and only for the system call; halting and a fault emit none. -/
theorem onlyTheSystemCallEmits : Obligations.OnlyTheSystemCallEmits := by
  intro i s t h
  obtain he | ⟨-, rfl⟩ | ⟨c, rfl⟩ := exec_effect h
  · obtain ho | ⟨⟨a, hi, hn⟩, b, ho⟩ := he.out
    · exact .inl ho
    · exact .inr ⟨a, b, hi, hn, ho⟩
  · exact .inl rfl
  · exact .inl rfl

end Sys2Proof.Machine
end

section
/-!
SUPPORT. When a step answers with a next state (rules R35 and R45), and where an instruction that is fetched whole ends
(rule R28).
-/

namespace Sys2Proof.Machine

/-! ### Every instruction has a meaning -/

section Answers

variable {s : State}

/-- An instruction's frame always ends in a next state: a fault is one (rule R311). -/
theorem runRule_answers (k : OpClass) (s : State) (rule : State → Except FaultCause State) :
    ∃ t, runRule k s rule = .next t := by
  obtain ⟨t, -, h⟩ | ⟨c, -, h⟩ := runRule_cases (k := k) (s := s) (rule := rule) rfl
  · exact ⟨t, h⟩
  · exact ⟨_, h⟩

/-- Every instruction but HALT runs in the frame of rule R101. -/
theorem exec_eq_runRule {i : Instr} (hi : i ≠ .halt) (s : State) : ∃ k rule, exec i s = runRule k s rule := by
  unfold exec
  cases i with
  | halt => exact absurd rfl hi
  | _ => exact ⟨_, _, rfl⟩

/-- Every instruction ends in a next state. -/
theorem exec_answers (i : Instr) (s : State) : ∃ t, exec i s = .next t := by
  by_cases hi : i = .halt
  · subst hi
    exact ⟨_, rfl⟩
  · obtain ⟨k, rule, h⟩ := exec_eq_runRule hi s
    rw [h]
    exact runRule_answers k s rule

/-- A running machine takes a step (rule R45). -/
theorem step_answers (h : s.status = .running) : ∃ t, step s = .next t := by
  cases hd : s.fetchDecode with
  | ok i =>
    rw [step_running_ok h hd]
    exact exec_answers i s
  | error c => exact ⟨_, step_running_error h hd⟩

/-- No step is refused. -/
theorem step_not_refused (r : Refusal) : step s ≠ .refused r := by
  intro h
  cases hs : s.status with
  | running =>
    obtain ⟨t, ht⟩ := step_answers hs
    rw [ht] at h
    cases h
  | halted => rw [step_halted hs] at h; cases h
  | faulted q => rw [step_faulted hs] at h; cases h

end Answers

/-- Settles O10: every instruction and every fault of the fetch ends in a next state, and a stopped machine has no
step. -/
theorem stepAnswersExactlyWhileRunning : Obligations.StepAnswersExactlyWhileRunning := fun _ =>
  ⟨step_answers, fun hs _ h => hs (running_of_step_next h), step_not_refused⟩

/-! ### The bytes an instruction is read from (rules R94 and R101) -/

section Length

variable {m : OpMap} {k : Op} {i : Instr} {bs rest : List Byte}

/-- The fields an instruction is read from are its encoding without the opcode byte. -/
theorem decodeFields_ok (h : decodeFields k bs = .ok (i, rest)) : m.byteOf k :: bs = encode m i ++ rest := by
  cases k with
  | nop | ret | di | ei =>
    cases h
    rfl
  | mfpc | mfsp | mfip | mfcr | not | push | pop | mtsp | mtip | mtcr | int =>
    obtain ⟨a, rfl, rfl⟩ := fieldsR1_ok h
    rfl
  | mov | lb | sb | add | addu | sub | subu | mul | mulu | and | or | xor | shl | shr | cmp | cmpu | bc | bcl =>
    obtain ⟨a, b, rfl, rfl⟩ := fieldsR2_ok h
    rfl
  | div | divu | bal | lsm | stm | mskr | msks =>
    obtain ⟨a, b, c, rfl, rfl⟩ := fieldsR3_ok h
    rfl
  | li =>
    obtain ⟨a, b0, b1, b2, b3, b4, b5, b6, b7, rfl, rfl⟩ := fieldsI_ok h
    rw [encode, beBytes_beWord]
    rfl

/-- Bytes that decode are the encoding of the instruction and what follows it. -/
theorem decode_ok (h : decode m bs = .ok (i, rest)) : bs = encode m i ++ rest := by
  cases bs with
  | nil => cases h
  | cons op bs =>
    rw [decode_cons] at h
    split_ifs at h with h0
    · cases h
      rw [h0]
      rfl
    · cases hk : m.lookup op with
      | none =>
        rw [hk] at h
        cases h
      | some k =>
        rw [hk] at h
        rw [← (OpMap.lookup_sound hk).2]
        exact decodeFields_ok h

/-- An encoding has at least its opcode byte. -/
theorem encode_length_pos (m : OpMap) (i : Instr) : 0 < (encode m i).length := by
  cases i <;> exact Nat.succ_pos _

/-- An instruction that is fetched whole lies inside memory (rules R28 and R70). -/
theorem fetchDecode_fits {s : State} (h : s.fetchDecode = .ok i) :
    s.pc.toNat + (encode s.cfg.opmap i).length ≤ s.cfg.memSize.toNat := by
  unfold State.fetchDecode at h
  split at h
  next j rest hd =>
    cases h
    have hlen := congrArg List.length (decode_ok hd)
    rw [List.length_append, State.fetchWindow, fetchBytes_length] at hlen
    have hpos := encode_length_pos s.cfg.opmap i
    omega
  next => cases h

end Length

/-- Settles O15: the fetch window ends at the memory size, so an instruction read from it does, and the memory size is a
word. -/
theorem pcAdvanceNeverWraps : Obligations.PcAdvanceNeverWraps := by
  intro s i h
  have hfit := fetchDecode_fits h
  have hsize := s.cfg.memSize.isLt
  refine ⟨hfit, ?_⟩
  rw [BitVec.toNat_add, BitVec.toNat_ofNat, Nat.add_mod_mod]
  exact Nat.mod_eq_of_lt (by omega)

end Sys2Proof.Machine
end

section
/-!
SUPPORT. The interrupt-enable flag under every operation (rules R34 and R307): no operation reads it, so each answers
alike from two states that differ in it alone.
-/

namespace Sys2Proof.Machine

/-! ### States that differ in the flag -/

section Agree

variable {s t : State}

/-- Two states that agree but for the flag: the one is the other with its flag written. -/
theorem agreeButIe_iff : agreeButIe s t ↔ ∃ b, s = t.setIe b := by
  constructor
  · exact fun h => ⟨s.ie, h.symm⟩
  · rintro ⟨b, rfl⟩
    rfl

/-- A state with its flag written agrees with it. -/
theorem setIe_agree (t : State) (b : Bool) : agreeButIe (t.setIe b) t := agreeButIe_iff.2 ⟨b, rfl⟩

end Agree

/-! ### The shared operations do not read the flag -/

/-- What an operation answers, with the flag written in the state it ends in. -/
abbrev withIe (b : Bool) (r : Except FaultCause State) : Except FaultCause State := r.map (·.setIe b)

section Operations

variable (s : State) (b : Bool)

@[simp] theorem fits_setIe (a : Word) (w : Width) : (s.setIe b).fits a w = s.fits a w := rfl

@[simp] theorem vectorAddr_setIe (n : Byte) : (s.setIe b).vectorAddr n = s.vectorAddr n := rfl

theorem storeByte_setIe (a : Word) (v : Byte) : (s.setIe b).storeByte a v = withIe b (s.storeByte a v) := by
  rw [storeByte_eq, storeByte_eq, fits_setIe]
  split_ifs <;> rfl

theorem storeWord_setIe (a v : Word) : (s.setIe b).storeWord a v = withIe b (s.storeWord a v) := by
  rw [storeWord_eq, storeWord_eq, fits_setIe]
  split_ifs <;> rfl

theorem push_setIe (v : Word) : (s.setIe b).push v = withIe b (s.push v) := by
  rw [push_eq, push_eq, setIe_sp, fits_setIe]
  split_ifs <;> rfl

theorem pop_setIe : (s.setIe b).pop = s.pop.map fun p => (p.1, p.2.setIe b) := by
  rw [pop_eq, pop_eq, setIe_sp, fits_setIe]
  split_ifs <;> rfl

theorem returnFrom_setIe : (s.setIe b).returnFrom = withIe b s.returnFrom := by
  rw [returnFrom_eq, returnFrom_eq, setIe_sp, fits_setIe]
  split_ifs <;> rfl

theorem systemCall_setIe : (s.setIe b).systemCall = withIe b s.systemCall := by
  unfold State.systemCall
  rw [setIe_reg]
  split_ifs <;> rfl

theorem enterInterrupt_setIe (n : Byte) : (s.setIe b).enterInterrupt n = withIe b (s.enterInterrupt n) := by
  rw [enterInterrupt_eq, enterInterrupt_eq, setIe_sp, vectorAddr_setIe, fits_setIe, fits_setIe]
  split_ifs <;> rfl

theorem raiseInterrupt_setIe (n : Byte) : (s.setIe b).raiseInterrupt n = withIe b (s.raiseInterrupt n) := by
  unfold State.raiseInterrupt
  split_ifs
  · exact systemCall_setIe s b
  · exact enterInterrupt_setIe s b n

theorem setRegs_setIe (rs : List RegNum) (v : Word) : (s.setIe b).setRegs rs v = (s.setRegs rs v).setIe b := by
  induction rs generalizing s with
  | nil => rfl
  | cons r rs ih => exact ih (s.setReg r v)

end Operations

/-! ### The instructions do not read the flag -/

/-- A rule does not read the flag: with the flag written before it, it answers alike, but for the flag. The flag it ends
with is the one written, or for DI and EI the one they write. -/
def IgnoresIe (rule : State → Except FaultCause State) : Prop :=
  ∀ s b, ∃ c, rule (s.setIe b) = withIe c (rule s)

section Rules

variable {s t : State} {b : Bool}

/-- A rule that never faults ignores the flag if its update does. -/
theorem ignoresIe_ok {f : State → State} (hf : ∀ s b, ∃ c, f (s.setIe b) = (f s).setIe c) :
    IgnoresIe fun s => .ok (f s) := fun s b =>
  (hf s b).imp fun _ hc => congrArg Except.ok hc

/-- After an operation that does not read the flag, a rule ignores it if its rest does. -/
theorem bind_withIe {α : Type} {x : Except FaultCause α} {f g : α → Except FaultCause State}
    (h : ∀ a, f a = withIe b (g a)) : (x >>= f) = withIe b (x >>= g) := by
  cases x with
  | error => rfl
  | ok a => exact h a

/-- After an operation that hands on a state, a rule ignores the flag if its rest does. -/
theorem map_bind_withIe {α : Type} {x : Except FaultCause α} {m : α → α} {f g : α → Except FaultCause State}
    (h : ∀ a, f (m a) = withIe b (g a)) : (x.map m >>= f) = withIe b (x >>= g) := by
  cases x with
  | error => rfl
  | ok a => exact h a

/-- An instruction whose rule ignores the flag answers alike. -/
theorem runRule_agree {k : OpClass} {rule : State → Except FaultCause State} (hr : IgnoresIe rule) :
    outcomesAgreeButIe (runRule k (s.setIe b) rule) (runRule k s rule) := by
  obtain ⟨c, hc⟩ := hr (s.setPc (s.pc + BitVec.ofNat 64 k.width)) b
  have hrun : runRule k (s.setIe b) rule = settle (s.setIe b) (withIe c (rule _)) :=
    congrArg (settle (s.setIe b)) hc
  rw [hrun, runRule]
  cases rule (s.setPc (s.pc + BitVec.ofNat 64 k.width)) with
  | ok t => exact setIe_agree t c
  | error e => exact setIe_agree (s.takeFault e) b

/-- No instruction reads the flag (rules R34 and R307). -/
theorem exec_agree (i : Instr) (s : State) (b : Bool) : outcomesAgreeButIe (exec i (s.setIe b)) (exec i s) := by
  unfold exec
  cases i with
  | halt => exact setIe_agree (s.setStatus .halted) b
  | di => exact runRule_agree (ignoresIe_ok fun _ _ => ⟨false, rfl⟩)
  | ei => exact runRule_agree (ignoresIe_ok fun _ _ => ⟨true, rfl⟩)
  | nop | mfpc | mfsp | mfip | mfcr | not | mtsp | mtip | mtcr | mov | add | addu | sub | subu | mul | mulu | and | or
  | xor | shl | shr | cmp | cmpu | mskr | li => exact runRule_agree (ignoresIe_ok fun _ c => ⟨c, rfl⟩)
  | bc a | bal a =>
    refine runRule_agree (ignoresIe_ok fun u c => ⟨c, ?_⟩)
    rw [setIe_cr, setIe_reg u c a]
    split_ifs <;> rfl
  | ret => exact runRule_agree fun u c => ⟨c, returnFrom_setIe u c⟩
  | push => exact runRule_agree fun u c => ⟨c, push_setIe u c _⟩
  | int => exact runRule_agree fun u c => ⟨c, raiseInterrupt_setIe u c _⟩
  | sb => exact runRule_agree fun u c => ⟨c, storeByte_setIe u c _ _⟩
  | pop =>
    refine runRule_agree fun u c => ⟨c, ?_⟩
    rw [pop_setIe]
    exact map_bind_withIe fun _ => rfl
  | lb => exact runRule_agree fun u c => ⟨c, bind_withIe fun _ => rfl⟩
  | bcl a =>
    refine runRule_agree fun u c => ⟨c, ?_⟩
    rw [setIe_cr, setIe_reg u c a, push_setIe]
    split_ifs
    · exact map_bind_withIe fun _ => rfl
    · rfl
  | div a d | divu a d =>
    refine runRule_agree fun u c => ⟨c, ?_⟩
    rw [setIe_reg u c d, setIe_reg u c a]
    split_ifs <;> rfl
  | lsm =>
    refine runRule_agree fun u c => ⟨c, ?_⟩
    dsimp only
    split_ifs
    · rfl
    · exact bind_withIe fun v => congrArg Except.ok (setRegs_setIe u c _ v)
  | stm =>
    refine runRule_agree fun u c => ⟨c, ?_⟩
    dsimp only
    split_ifs
    · rfl
    · exact bind_withIe fun _ => rfl
  | msks => exact runRule_agree fun u c => ⟨c, bind_withIe fun _ => storeWord_setIe u c _ _⟩

end Rules

/-! ### The step and the run do not read the flag -/

section Runs

variable (s t : State) (b : Bool)

theorem fetchBytes_setIe (a : Word) (n : Nat) : (s.setIe b).fetchBytes a n = s.fetchBytes a n := by
  induction n generalizing a with
  | zero => rfl
  | succ n ih => rw [fetchBytes_succ, fetchBytes_succ, ih, fits_setIe, setIe_mem]

theorem fetchDecode_setIe : (s.setIe b).fetchDecode = s.fetchDecode := by
  unfold State.fetchDecode State.fetchWindow
  rw [setIe_pc, fetchBytes_setIe, setIe_cfg]

/-- No step reads the flag. -/
theorem step_agree : outcomesAgreeButIe (step (s.setIe b)) (step s) := by
  cases hs : s.status with
  | halted =>
    rw [step_halted hs, step_halted (s := s.setIe b) hs]
    rfl
  | faulted r =>
    rw [step_faulted hs, step_faulted (s := s.setIe b) hs]
    rfl
  | running =>
    cases hd : s.fetchDecode with
    | ok i =>
      rw [step_running_ok hs hd, step_running_ok (s := s.setIe b) hs ((fetchDecode_setIe s b).trans hd)]
      exact exec_agree i s b
    | error c =>
      rw [step_running_error hs hd, step_running_error (s := s.setIe b) hs ((fetchDecode_setIe s b).trans hd)]
      exact setIe_agree (s.takeFault c) b

end Runs

/-- No run reads the flag. -/
theorem run_agree (k : Nat) {s t : State} (h : agreeButIe s t) :
    outcomesAgreeButIe (Sys2Proof.core.run k s) (Sys2Proof.core.run k t) := by
  induction k generalizing s t with
  | zero => exact h
  | succ k ih =>
    obtain ⟨b, rfl⟩ := agreeButIe_iff.1 h
    have hstep := step_agree t b
    cases hs : step (t.setIe b) <;> cases ht : step t <;> rw [hs, ht] at hstep
    case next.next =>
      rw [run_succ_next k hs, run_succ_next k ht]
      exact ih hstep
    case fault.fault =>
      rw [run_succ_fault k hs, run_succ_fault k ht]
      exact hstep
    case refused.refused =>
      rw [run_succ_refused k hs, run_succ_refused k ht]
      exact hstep
    all_goals exact hstep.elim

/-- Settles O20: no step reads the flag, so by induction on the number of steps no run does. -/
theorem interruptEnableIsUnobservable : Obligations.InterruptEnableIsUnobservable :=
  fun k _ _ => run_agree k

end Sys2Proof.Machine
end

section
/-!
SUPPORT. The memory rules (rules R63 to R75 and R83): the bytes of a word, what each checked accessor answers on either
side of its bound, what a store and the stack leave in memory, and the bytes of memory an instruction leaves alone.
-/

namespace Sys2Proof.Machine

/-! ### The bytes of a word (rules R64 and R66) -/

section WordBytes

variable (m : Memory) (a : Nat)

/-- A byte of a word that is read is the byte of memory at its big-endian position. -/
theorem Memory.beByte_readWord {i : Nat} (hi : i < 8) : beByte (m.readWord a) i = m.read (a + i) := by
  have h := beBytes_beWord (m.read a) (m.read (a + 1)) (m.read (a + 2)) (m.read (a + 3)) (m.read (a + 4))
    (m.read (a + 5)) (m.read (a + 6)) (m.read (a + 7))
  simp only [beBytes, List.cons.injEq] at h
  obtain ⟨_, _, _, _, _, _, _, _, -⟩ := h
  interval_cases i <;> assumption

/-- A word read over eight bytes written in order is their concatenation (rule R73). -/
theorem Memory.readWord_writeBytes (b0 b1 b2 b3 b4 b5 b6 b7 : Byte) :
    (m.writeBytes a [b0, b1, b2, b3, b4, b5, b6, b7]).readWord a = beWord b0 b1 b2 b3 b4 b5 b6 b7 := by
  rw [← beBytes_beWord]
  exact m.readWord_writeWord a _

end WordBytes

/-! ### The checked accessors on either side of their bound (rules R63 to R67 and R70) -/

section Accessors

variable {s t : State} {a : Word}

/-- A byte access outside memory does not fit. -/
theorem not_fits_byte (h : s.cfg.memSize.toNat ≤ a.toNat) : ¬ s.fits a .byte = true :=
  mt (fits_byte s a).1 (Nat.not_lt.2 h)

/-- A word access that does not end inside memory does not fit. -/
theorem not_fits_word (h : s.cfg.memSize.toNat < a.toNat + 8) : ¬ s.fits a .word = true :=
  mt (fits_word s a).1 (Nat.not_le.2 h)

/-- The address of a byte inside a word that fits does not wrap (rule R67). -/
theorem toNat_add_of_fits_word (h : s.fits a .word = true) {i : Nat} (hi : i < 8) :
    (a + BitVec.ofNat 64 i).toNat = a.toNat + i := by
  have hend := (fits_word s a).1 h
  have hsize := s.cfg.memSize.isLt
  rw [BitVec.toNat_add, BitVec.toNat_ofNat, Nat.add_mod_mod]
  exact Nat.mod_eq_of_lt (by omega)

/-- A store to memory keeps everything else. -/
theorem setMem_frame (s : State) (m : Memory) :
    (s.setMem m).pc = s.pc ∧ sameRegs s (s.setMem m) ∧ sameSpecials s (s.setMem m) ∧ sameRun s (s.setMem m) :=
  ⟨rfl, fun _ => rfl, ⟨rfl, rfl, rfl, rfl⟩, rfl, rfl, rfl⟩

/-- The next fetch of a byte that was stored gives it (rule R83). -/
theorem fetchByte_of_storeByte {v : Byte} (h : s.storeByte a v = .ok t) : t.fetchByte a = .ok v := by
  obtain ⟨hf, rfl⟩ := guarded_eq_ok ((storeByte_eq s a v).symm.trans h)
  rw [fetchByte_eq, fits_setMem, if_pos hf, setMem_mem, Memory.read_write_self]

/-- A byte load inside a word that was stored gives the word's byte (rule R73). -/
theorem loadByte_of_storeWord {v : Word} {i : Nat} (hi : i < 8) (h : s.storeWord a v = .ok t) :
    t.loadByte (a + BitVec.ofNat 64 i) = .ok (beByte v i) := by
  obtain ⟨hf, rfl⟩ := guarded_eq_ok ((storeWord_eq s a v).symm.trans h)
  have haddr := toNat_add_of_fits_word hf hi
  have hend := (fits_word s a).1 hf
  have hbyte : s.fits (a + BitVec.ofNat 64 i) .byte = true := (fits_byte s _).2 (by omega)
  rw [loadByte_eq, fits_setMem, if_pos hbyte, setMem_mem, haddr, Memory.read_writeWord_inside _ _ _ _ hi]

/-- A word that was stored loads back as it was (rule R66). -/
theorem loadWord_of_storeWord {v : Word} (h : s.storeWord a v = .ok t) : t.loadWord a = .ok v := by
  obtain ⟨hf, rfl⟩ := guarded_eq_ok ((storeWord_eq s a v).symm.trans h)
  rw [loadWord_eq, fits_setMem, if_pos hf, setMem_mem, Memory.readWord_writeWord]

/-- A pop right after a push gets the word pushed and restores `sp` (rule R75), and it never faults. -/
theorem pop_of_push {v : Word} (h : s.push v = .ok t) : t.pop = .ok (v, t.setSp s.sp) := by
  obtain ⟨hf, rfl⟩ := guarded_eq_ok ((push_eq s v).symm.trans h)
  rw [pop_eq, setSp_sp, fits_setSp, fits_setMem, if_pos hf, setSp_mem, setMem_mem, Memory.readWord_writeWord,
    BitVec.sub_add_cancel]

/-- A pop does not read the program counter. -/
theorem pop_setPc (s : State) (v : Word) : (s.setPc v).pop = s.pop.map fun q => (q.1, q.2.setPc v) := by
  rw [pop_eq, pop_eq, setPc_sp, fits_setPc]
  split_ifs <;> rfl

end Accessors

/-! ### The rules of the instructions that move one value to or from memory (rules R145, R146 and R173) -/

section Rules

variable (a b : RegNum) (s : State)

theorem exec_push : exec (.push a) s = runRule .r1 s fun t => t.push (t.reg a) := rfl

theorem exec_pop : exec (.pop a) s = runRule .r1 s fun t => t.pop >>= fun q => .ok (q.2.setReg a q.1) := rfl

theorem exec_sb : exec (.sb a b) s = runRule .r2 s fun t => t.storeByte (t.reg a) (lowByte (t.reg b)) := rfl

variable {s}

/-- An instruction whose rule succeeds ends in the state the rule ends in. -/
theorem runRule_of_ok {k : OpClass} {t : State} {rule : State → Except FaultCause State}
    (h : rule (s.setPc (s.pc + BitVec.ofNat 64 k.width)) = .ok t) : runRule k s rule = .next t :=
  congrArg (settle s) h

end Rules

/-! ### The bytes an operation leaves alone (rule R71) -/

section Outside

variable {s t : State} {p : Nat}

theorem storeByte_outside {a : Word} {v : Byte} (h : s.storeByte a v = .ok t) (hp : p < a.toNat ∨ a.toNat + 1 ≤ p) :
    t.mem.read p = s.mem.read p := by
  obtain ⟨-, rfl⟩ := guarded_eq_ok ((storeByte_eq s a v).symm.trans h)
  exact s.mem.read_writeBytes_outside a.toNat p [v] hp

theorem storeWord_outside {a v : Word} (h : s.storeWord a v = .ok t) (hp : p < a.toNat ∨ a.toNat + 8 ≤ p) :
    t.mem.read p = s.mem.read p := by
  obtain ⟨-, rfl⟩ := guarded_eq_ok ((storeWord_eq s a v).symm.trans h)
  exact s.mem.read_writeWord_outside a.toNat p v hp

theorem push_outside {v : Word} (h : s.push v = .ok t)
    (hp : p < (s.sp - 8#64).toNat ∨ (s.sp - 8#64).toNat + 8 ≤ p) : t.mem.read p = s.mem.read p := by
  obtain ⟨u, hu, ht⟩ := bind_eq_ok_iff.1 h
  cases ht
  exact (storeWord_outside hu hp :)

theorem pop_mem {q : Word × State} (h : s.pop = .ok q) : q.2.mem = s.mem := by
  obtain ⟨-, rfl⟩ := guarded_eq_ok ((pop_eq s).symm.trans h)
  rfl

theorem returnFrom_mem (h : s.returnFrom = .ok t) : t.mem = s.mem := by
  obtain ⟨-, rfl⟩ := guarded_eq_ok ((returnFrom_eq s).symm.trans h)
  rfl

theorem enterInterrupt_outside {n : Byte} (h : s.enterInterrupt n = .ok t)
    (hp : p < (s.sp - 8#64).toNat ∨ (s.sp - 8#64).toNat + 8 ≤ p) : t.mem.read p = s.mem.read p := by
  obtain ⟨u, hu, h⟩ := bind_eq_ok_iff.1 h
  obtain ⟨v, -, ht⟩ := bind_eq_ok_iff.1 h
  cases ht
  exact (push_outside hu hp :)

/-- The system call stores nothing; every other interrupt stores the word it pushes (rule R301). -/
theorem raiseInterrupt_outside {n : Byte} (h : s.raiseInterrupt n = .ok t)
    (hp : n ≠ 1#8 → p < (s.sp - 8#64).toNat ∨ (s.sp - 8#64).toNat + 8 ≤ p) : t.mem.read p = s.mem.read p := by
  unfold State.raiseInterrupt at h
  split_ifs at h with hn
  · obtain ⟨-, rfl⟩ := systemCall_cases s h
    rfl
  · exact enterInterrupt_outside h (hp hn)

/-- A byte that an instruction's rule leaves alone reads as before, also where the rule faults (rule R311). -/
theorem runRule_outside {k : OpClass} {rule : State → Except FaultCause State} (h : runRule k s rule = .next t)
    (hr : ∀ v, rule (s.setPc v) = .ok t → t.mem.read p = (s.setPc v).mem.read p) :
    t.mem.read p = s.mem.read p := by
  obtain ht | ⟨c, rfl⟩ := runRule_next h
  · exact (hr _ ht :)
  · rfl

/-- An instruction whose rule never faults leaves every byte if its update does not write memory. -/
theorem runRule_ok_outside {k : OpClass} {f : State → State} (h : runRule k s (fun u => .ok (f u)) = .next t)
    (hf : ∀ u, (f u).mem = u.mem) : t.mem.read p = s.mem.read p :=
  runRule_outside h fun _ hv => Except.ok.inj hv ▸ congrArg (Memory.read · p) (hf _)

/-- The byte at `p` is none of the bytes the instruction stores to. -/
def outsideStores (i : Instr) (s : State) (p : Nat) : Prop :=
  ∀ a n, storeSpan i s = some (a, n) → p < a ∨ a + n ≤ p

/-- A byte outside the bytes an instruction stores to reads as before. -/
theorem exec_outside {i : Instr} (h : exec i s = .next t) (hp : outsideStores i s p) :
    t.mem.read p = s.mem.read p := by
  unfold exec at h
  cases i with
  | halt =>
    cases h
    rfl
  | nop | di | ei | mfpc | mfsp | mfip | mfcr | not | mtsp | mtip | mtcr | mov | add | addu | sub | subu | mul | mulu
  | and | or | xor | shl | shr | cmp | cmpu | mskr | li =>
    exact runRule_ok_outside h fun _ => rfl
  | bc | bal =>
    refine runRule_ok_outside h fun u => ?_
    split <;> rfl
  | ret => exact runRule_outside h fun _ hv => congrArg (Memory.read · p) (returnFrom_mem hv)
  | push => exact runRule_outside h fun _ hv => push_outside hv (hp _ _ rfl)
  | int => exact runRule_outside h fun _ hv => raiseInterrupt_outside hv fun hn => hp _ _ (if_neg hn)
  | sb => exact runRule_outside h fun _ hv => storeByte_outside hv (hp _ _ rfl)
  | pop =>
    refine runRule_outside h fun v hv => ?_
    obtain ⟨q, hq, ht⟩ := bind_eq_ok_iff.1 hv
    cases ht
    exact congrArg (Memory.read · p) (pop_mem hq)
  | lb =>
    refine runRule_outside h fun v hv => ?_
    obtain ⟨b, -, ht⟩ := bind_eq_ok_iff.1 hv
    cases ht
    rfl
  | bcl =>
    refine runRule_outside h fun v hv => ?_
    split_ifs at hv with htaken
    · obtain ⟨u, hu, ht⟩ := bind_eq_ok_iff.1 hv
      cases ht
      exact (push_outside hu (hp _ _ (if_pos htaken)) :)
    · cases hv
      rfl
  | div | divu =>
    refine runRule_outside h fun v hv => ?_
    split_ifs at hv
    cases hv
    rfl
  | lsm =>
    refine runRule_outside h fun v hv => ?_
    dsimp only at hv
    split_ifs at hv
    · cases hv
    · obtain ⟨w, -, ht⟩ := bind_eq_ok_iff.1 hv
      cases ht
      exact congrArg (Memory.read · p) (setRegs_mem _ _ w)
  | stm a b =>
    refine runRule_outside h fun v hv => ?_
    dsimp only at hv
    split_ifs at hv with hab
    · cases hv
    · obtain ⟨-, -, ht⟩ := bind_eq_ok_iff.1 hv
      cases ht
      exact storeRun_read_outside _ _ _ p (hp _ _ (if_pos (BitVec.not_lt.1 hab)))
  | msks =>
    refine runRule_outside h fun v hv => ?_
    obtain ⟨old, -, hw⟩ := bind_eq_ok_iff.1 hv
    exact storeWord_outside hw (hp _ _ rfl)

end Outside

/-! ### The obligations -/

/-- Settles O18: each shared operation leaves the bytes outside its own store, and the case split over the instructions
matches each store with the span `storeSpan` gives it. -/
theorem storesTouchOnlyTheirBytes : Obligations.StoresTouchOnlyTheirBytes :=
  fun _ _ _ _ => exec_outside

/-- Settles O30: a push that fits completes, and the pop after it reads the word it stored. -/
theorem popAfterPushRestores : Obligations.PopAfterPushRestores := by
  intro s t a b hs h
  rw [exec_push] at h
  obtain ⟨w, hpush, hw⟩ | ⟨c, hc, -⟩ := runRule_cases h
  · cases hw
    have hpop := (pop_setPc t (t.pc + 2#64)).trans (congrArg _ (pop_of_push hpush))
    exact ⟨_, (exec_pop b t).trans (runRule_of_ok (bind_eq_ok_iff.2 ⟨_, hpop, rfl⟩)), setReg_reg_self _ b _, rfl⟩
  · have hfits : s.fits (s.sp - 8#64) .word = true := hs
    rw [push_eq, setPc_sp, fits_setPc, if_pos hfits] at hc
    cases hc

/-- Settles O57: a byte inside a stored word fits where the word does, and bytes written one by one are a run of
bytes. -/
theorem bytesInsideAWord : Obligations.BytesInsideAWord :=
  ⟨fun _ _ _ _ _ => loadByte_of_storeWord, Memory.readWord_writeBytes⟩

/-- Settles O13: the reset state is the one launched with nothing loaded. -/
theorem resetMeetsTheInvariant : Obligations.ResetMeetsTheInvariant :=
  launched_inv (c := Config.reference) (img := []) (setup := []) (Nat.zero_le _) nofun

/-- Settles O55: each accessor is one bounds check, and a byte written reads back as written. -/
theorem byteAccesses : Obligations.ByteAccesses := by
  intro s a v
  refine ⟨fun h => ?_, fun h => ?_⟩
  · have hf := not_fits_byte h
    exact ⟨(loadByte_eq s a).trans (if_neg hf), (fetchByte_eq s a).trans (if_neg hf),
      (storeByte_eq s a v).trans (if_neg hf)⟩
  · have hf := (fits_byte s a).2 h
    have hstore := (storeByte_eq s a v).trans (if_pos hf)
    exact ⟨(loadByte_eq s a).trans (if_pos hf), (fetchByte_eq s a).trans (if_pos hf), _, hstore,
      Memory.read_write_self _ _ _, fun _ => storeByte_outside hstore, setMem_frame s _⟩

/-- Settles O56: each accessor is one bounds check, and the bytes of a word read and of a word written are its
big-endian bytes. -/
theorem wordAccessesAreBigEndian : Obligations.WordAccessesAreBigEndian := by
  intro s a v
  refine ⟨fun h => ?_, fun h => ⟨?_, ?_⟩⟩
  · have hf := not_fits_word h
    exact ⟨(loadWord_eq s a).trans (if_neg hf), (storeWord_eq s a v).trans (if_neg hf)⟩
  · exact ⟨_, (loadWord_eq s a).trans (if_pos ((fits_word s a).2 h)), fun _ => s.mem.beByte_readWord a.toNat⟩
  · have hstore := (storeWord_eq s a v).trans (if_pos ((fits_word s a).2 h))
    exact ⟨_, hstore, fun i => s.mem.read_writeWord_inside a.toNat i v, loadWord_of_storeWord hstore,
      fun _ => storeWord_outside hstore, setMem_frame s _⟩

/-- Settles O58: an SB after which the machine runs has not faulted, so it has stored its byte. -/
theorem storesAreSeenByTheNextFetch : Obligations.StoresAreSeenByTheNextFetch := by
  intro s t a b h hrun
  rw [exec_sb] at h
  obtain hstore | ⟨c, rfl⟩ := runRule_next h
  · exact fetchByte_of_storeByte hstore
  · cases hrun

end Sys2Proof.Machine
end

section
/-!
SUPPORT. The encoding (rules R90 to R102): what the field layouts answer for any number of operand bytes, the decoder
and the encoder as inverses of each other, the opcode bytes a map leaves illegal; and what a running machine fetches at
its program counter, from a whole encoding to no byte at all.
-/

namespace Sys2Proof.Machine

/-! ### Decoding an encoding (rules R94, R96 and R97) -/

section RoundTrip

variable {m : OpMap} {k : Op} {i : Instr}

/-- The bytes of a literal read back as the literal (rule R96). -/
theorem fieldsI_beBytes (mk : RegNum → Word → Instr) (a : RegNum) (v : Word) (rest : List Byte) :
    fieldsI mk (a :: (beBytes v ++ rest)) = .ok (mk a v, rest) :=
  congrArg (fun w => Except.ok (mk a w, rest)) (beWord_beByte v)

/-- An instruction's encoding is its operation's byte and then fields that this operation reads back. -/
theorem encode_append_of_op (m : OpMap) (h : i.op? = some k) (rest : List Byte) :
    ∃ bs, encode m i ++ rest = m.byteOf k :: bs ∧ decodeFields k bs = .ok (i, rest) := by
  cases i with
  | halt => cases h
  | li a v =>
    cases h
    exact ⟨_, rfl, fieldsI_beBytes .li a v rest⟩
  | _ =>
    cases h
    exact ⟨_, rfl, rfl⟩

/-- A byte other than `0x00` that selects an operation has its fields read by that operation. -/
theorem decode_of_lookup {op : Byte} (h0 : op ≠ 0x00#8) (h : m.lookup op = some k) (bs : List Byte) :
    decode m (op :: bs) = decodeFields k bs := by
  rw [decode_cons, if_neg h0, h]

/-- Only HALT has no byte in the opcode map (rule R97). -/
theorem op?_eq_none_iff : i.op? = none ↔ i = .halt := by
  cases i with
  | halt => exact iff_of_true rfl rfl
  | _ => exact iff_of_false nofun nofun

/-- The encoding of a well-formed instruction decodes to it and leaves what follows. -/
theorem decode_encode_append (h : i.wellFormed m = true) (rest : List Byte) :
    decode m (encode m i ++ rest) = .ok (i, rest) := by
  unfold Instr.wellFormed at h
  cases hk : i.op? with
  | none =>
    rw [op?_eq_none_iff.1 hk]
    exact decode_zero m rest
  | some k =>
    rw [hk] at h
    obtain ⟨bs, hbs, hfields⟩ := encode_append_of_op m hk rest
    obtain ⟨-, hne, -⟩ := (OpMap.okFor_iff m k).1 h
    rw [hbs, decode_of_lookup hne (OpMap.lookup_byteOf h), hfields]

end RoundTrip

/-- Settles O1: the byte of a well-formed instruction selects its operation, whose layout reads back the fields the
encoder wrote. -/
theorem decodeOfEncodeIsTheInstruction : Obligations.DecodeOfEncodeIsTheInstruction :=
  fun _ _ rest h => decode_encode_append h rest

/-- Settles O2: each layout drops no byte of the fields it reads, and a byte selects only the operation the map gives it
to. -/
theorem decodedBytesAreTheEncoding : Obligations.DecodedBytesAreTheEncoding :=
  fun _ _ _ _ => decode_ok

/-! ### How many bytes a layout asks for (rules R92, R94 and R101) -/

section Layouts

variable {k : Op}

/-- `f` reads an instruction of operation `k` from the first `n` bytes, and where there are fewer it names the offset
of the first one missing. -/
structure ReadsOperands (k : Op) (n : Nat) (f : List Byte → Decoded) : Prop where
  /-- Too few bytes: the offset of the first one missing, counted from the opcode byte. -/
  missing : ∀ bs : List Byte, bs.length < n → f bs = .error (.operandMissing (1 + bs.length))
  /-- Enough bytes: an instruction of the operation. -/
  complete : ∀ bs : List Byte, n ≤ bs.length → ∃ i rest, f bs = .ok (i, rest) ∧ i.op? = some k

theorem fieldsZ_reads {i : Instr} (hi : i.op? = some k) : ReadsOperands k 0 (fieldsZ i) where
  missing bs h := absurd h (Nat.not_lt_zero bs.length)
  complete bs _ := ⟨i, bs, rfl, hi⟩

theorem fieldsR1_reads {mk : RegNum → Instr} (hmk : ∀ a, (mk a).op? = some k) : ReadsOperands k 1 (fieldsR1 mk) where
  missing
    | [], _ => rfl
  complete
    | a :: rest, _ => ⟨mk a, rest, rfl, hmk a⟩

theorem fieldsR2_reads {mk : RegNum → RegNum → Instr} (hmk : ∀ a b, (mk a b).op? = some k) :
    ReadsOperands k 2 (fieldsR2 mk) where
  missing
    | [], _ | [_], _ => rfl
  complete
    | a :: b :: rest, _ => ⟨mk a b, rest, rfl, hmk a b⟩

theorem fieldsR3_reads {mk : RegNum → RegNum → RegNum → Instr} (hmk : ∀ a b c, (mk a b c).op? = some k) :
    ReadsOperands k 3 (fieldsR3 mk) where
  missing
    | [], _ | [_], _ | [_, _], _ => rfl
  complete
    | a :: b :: c :: rest, _ => ⟨mk a b c, rest, rfl, hmk a b c⟩

theorem fieldsI_reads {mk : RegNum → Word → Instr} (hmk : ∀ a v, (mk a v).op? = some k) :
    ReadsOperands k 9 (fieldsI mk) where
  missing
    | [], _ | [_], _ | [_, _], _ | [_, _, _], _ | [_, _, _, _], _ | [_, _, _, _, _], _ | [_, _, _, _, _, _], _
    | [_, _, _, _, _, _, _], _ | [_, _, _, _, _, _, _, _], _ => rfl
  complete
    | a :: b0 :: b1 :: b2 :: b3 :: b4 :: b5 :: b6 :: b7 :: rest, _ =>
      ⟨mk a (beWord b0 b1 b2 b3 b4 b5 b6 b7), rest, rfl, hmk a _⟩

/-- Every operation reads the operand bytes of its class: its width without the opcode byte. -/
theorem decodeFields_reads (k : Op) : ReadsOperands k (k.cls.width - 1) (decodeFields k) := by
  cases k with
  | nop | ret | di | ei => exact fieldsZ_reads rfl
  | mfpc | mfsp | mfip | mfcr | not | push | pop | mtsp | mtip | mtcr | int => exact fieldsR1_reads fun _ => rfl
  | mov | lb | sb | add | addu | sub | subu | mul | mulu | and | or | xor | shl | shr | cmp | cmpu | bc | bcl =>
    exact fieldsR2_reads fun _ _ => rfl
  | div | divu | bal | lsm | stm | mskr | msks => exact fieldsR3_reads fun _ _ _ => rfl
  | li => exact fieldsI_reads fun _ _ => rfl

/-- What the fields of an operation answer: an instruction of that operation, or a missing operand byte. -/
theorem decodeFields_cases (k : Op) (bs : List Byte) :
    (∃ i rest, decodeFields k bs = .ok (i, rest) ∧ i.op? = some k) ∨
      decodeFields k bs = .error (.operandMissing (1 + bs.length)) :=
  (Nat.lt_or_ge bs.length (k.cls.width - 1)).symm.imp ((decodeFields_reads k).complete bs)
    ((decodeFields_reads k).missing bs)

/-- The fields of an operation answer only instructions of that operation. -/
theorem decodeFields_op {bs rest : List Byte} {i : Instr} (h : decodeFields k bs = .ok (i, rest)) : i.op? = some k := by
  obtain ⟨j, rest', hj, hop⟩ | herr := decodeFields_cases k bs
  · cases hj.symm.trans h
    exact hop
  · cases herr.symm.trans h

end Layouts

/-! ### The opcode byte (rules R91, R92 and R102) -/

section OpcodeByte

variable {m : OpMap} {op : Byte} {k : Op} {i : Instr} {bs rest : List Byte}

/-- A first byte that decodes is HALT's, or selects the operation whose fields follow. -/
theorem decode_cons_ok (h : decode m (op :: bs) = .ok (i, rest)) :
    (op = 0x00#8 ∧ i = .halt) ∨ op ≠ 0x00#8 ∧ ∃ k, m.lookup op = some k ∧ i.op? = some k := by
  by_cases h0 : op = 0x00#8
  · subst h0
    cases h
    exact .inl ⟨rfl, rfl⟩
  · refine .inr ⟨h0, ?_⟩
    cases hk : m.lookup op with
    | none => cases (decode_illegal h0 hk bs).symm.trans h
    | some k => exact ⟨k, rfl, decodeFields_op ((decode_of_lookup h0 hk bs).symm.trans h)⟩

/-- The masked byte of rule R92 is the high nibble, followed by four zero bits. -/
theorem and_highNibble_eq_iff (n : BitVec 4) : op &&& 0xF0#8 = n ++ 0#4 ↔ op.extractLsb' 4 4 = n := by
  have hmask : op &&& 0xF0#8 = op.extractLsb' 4 4 ++ 0#4 := by
    revert op
    decide
  rw [hmask]
  exact BitVec.append_left_inj _

/-- The class of a byte, by its high nibble (rule R92). -/
theorem classOf_eq (op : Byte) :
    classOf op =
      if op.extractLsb' 4 4 = 0xF#4 then .z
      else if op.extractLsb' 4 4 = 0x8#4 then .r1
      else if op.extractLsb' 4 4 = 0xC#4 then .r3
      else if op.extractLsb' 4 4 = 0xE#4 then .imm
      else .r2 := by
  simp only [← and_highNibble_eq_iff]
  rfl

/-- An encoding is as long as the class of its operation is wide (rules R92 and R94). -/
theorem encode_length_of_op (m : OpMap) (h : i.op? = some k) : (encode m i).length = k.cls.width := by
  cases i with
  | halt => cases h
  | _ =>
    cases h
    rfl

/-- The number of bytes of the instruction decoded is known from its first byte (rule R102). -/
theorem decode_encode_length (h : decode m (op :: bs) = .ok (i, rest)) :
    (encode m i).length = if op = 0x00#8 then 1 else (classOf op).width := by
  obtain ⟨h0, rfl⟩ | ⟨h0, k, hk, hi⟩ := decode_cons_ok h
  · rw [if_pos h0]
    rfl
  · rw [if_neg h0, encode_length_of_op m hi, (OpMap.lookup_sound hk).1]

end OpcodeByte

/-- Settles O4: an instruction read through the opcode map is not HALT, and the class test of a byte is a test of its
high nibble. -/
theorem opcodeByteChoosesHaltOrClass : Obligations.OpcodeByteChoosesHaltOrClass := by
  refine ⟨decode_zero, fun m op bs rest h => ?_, fun op => ?_, rfl, rfl, rfl, rfl, rfl⟩
  · obtain ⟨h0, -⟩ | ⟨-, k, -, hk⟩ := decode_cons_ok h
    · exact h0
    · cases hk
  · rw [classOf_eq]
    refine ⟨fun h => by simp [h], fun h => by simp [h], fun h => by simp [h], fun h => by simp [h], fun h => ?_⟩
    simp only [List.mem_cons, List.not_mem_nil, or_false, not_or] at h
    obtain ⟨hF, h8, hC, hE⟩ := h
    rw [if_neg hF, if_neg h8, if_neg hC, if_neg hE]

/-- Settles O5: the bytes read are the encoding, which begins with the first byte and is as long as its class says. -/
theorem lengthIsKnownFromTheFirstByte : Obligations.LengthIsKnownFromTheFirstByte := by
  intro m op bs rest i h
  have hlen := decode_encode_length h
  have hbytes := decode_ok h
  cases he : encode m i with
  | nil => exact absurd (encode_length_pos m i) (by simp [he])
  | cons b operands =>
    rw [he] at hbytes hlen
    exact ⟨operands, (List.cons.inj hbytes).2, (Nat.add_comm _ _).trans hlen⟩

/-! ### The illegal bytes (rule R99) -/

section Illegal

variable {m : OpMap} {op : Byte}

/-- A byte is rejected as illegal exactly when it is not HALT's and selects no operation. -/
theorem decode_eq_illegal_iff (bs : List Byte) :
    decode m (op :: bs) = .error (.illegalOpcode op) ↔ op ≠ 0x00#8 ∧ m.lookup op = none := by
  refine ⟨fun h => ?_, fun ⟨h0, hk⟩ => decode_illegal h0 hk bs⟩
  have h0 : op ≠ 0x00#8 := by
    rintro rfl
    cases h
  refine ⟨h0, ?_⟩
  cases hk : m.lookup op with
  | none => rfl
  | some k =>
    rw [decode_of_lookup h0 hk] at h
    obtain ⟨i, rest, hok, -⟩ | herr := decodeFields_cases k bs
    · cases hok.symm.trans h
    · cases herr.symm.trans h

/-- Under a legal map a byte selects no operation exactly when the map gives it to none. -/
theorem lookup_eq_none_iff (hm : m.legal = true) : m.lookup op = none ↔ op ∉ Op.all.map m.byteOf := by
  refine ⟨fun h hmem => ?_, fun h => ?_⟩
  · obtain ⟨k, -, rfl⟩ := List.mem_map.1 hmem
    cases h.symm.trans (OpMap.lookup_byteOf ((OpMap.legal_iff m).1 hm k))
  · cases hk : m.lookup op with
    | none => rfl
    | some k => exact absurd (List.mem_map.2 ⟨k, Op.mem_all k, (OpMap.lookup_sound hk).2⟩) h

end Illegal

/-- Settles O6: the reference assignment is legal, so a byte is illegal exactly when it is not HALT's and not listed; the
listed bytes and the ranges of rule R99 are compared byte by byte. -/
theorem illegalOpcodesOfTheReferenceMap : Obligations.IllegalOpcodesOfTheReferenceMap := by
  intro op bs
  rw [decode_eq_illegal_iff, lookup_eq_none_iff OpMap.reference_legal]
  revert op
  decide

/-- Settles O3: each string is read by evaluating the decoder. -/
theorem sampleBytesDecode : Obligations.SampleBytesDecode :=
  ⟨rfl, rfl, rfl, rfl, rfl, rfl⟩

/-! ### Fetching at the program counter (rules R70, R101 and R313) -/

section Fetching

variable {s : State} {i : Instr} {k : Op}

/-- The instruction fetched is the one the window decodes to. -/
theorem fetchDecode_of_decode_ok {rest : List Byte} (h : decode s.cfg.opmap s.fetchWindow = .ok (i, rest)) :
    s.fetchDecode = .ok i := by
  rw [State.fetchDecode, h]

/-- The fault of the fetch is the one for the decoder's rejection. -/
theorem fetchDecode_of_decode_error {e : DecodeReject} (h : decode s.cfg.opmap s.fetchWindow = .error e) :
    s.fetchDecode = .error (rejectCause s.pc e) := by
  rw [State.fetchDecode, h]

/-- An instruction has at least its opcode byte, and is no longer than the fetch window (rule R92). -/
theorem width_bounds (c : OpClass) : 1 ≤ c.width ∧ c.width ≤ maxInstrBytes := by
  cases c <;> decide

/-- No instruction is longer than the fetch window. -/
theorem encode_length_le (m : OpMap) (i : Instr) : (encode m i).length ≤ maxInstrBytes := by
  cases hi : i.op? with
  | none =>
    rw [op?_eq_none_iff.1 hi]
    change 1 ≤ maxInstrBytes
    decide
  | some k =>
    rw [encode_length_of_op m hi]
    exact (width_bounds k.cls).2

/-- Bytes that memory holds at the program counter begin the fetch window, if they fit in memory and in the window. -/
theorem fetchWindow_eq_append {bs : List Byte} (hlen : bs.length ≤ maxInstrBytes)
    (hfit : s.pc.toNat + bs.length ≤ s.cfg.memSize.toNat)
    (hmem : ∀ k, k < bs.length → s.mem.read (s.pc.toNat + k) = bs.getD k 0#8) :
    ∃ rest, s.fetchWindow = bs ++ rest := by
  have hprefix : bs <+: s.fetchWindow := by
    refine List.prefix_iff_getElem?.2 fun k hk => ?_
    rw [State.fetchWindow, fetchBytes_getElem? s s.pc maxInstrBytes k (by omega) (by omega), hmem k hk,
      List.getD_eq_getElem _ _ hk]
  obtain ⟨rest, h⟩ := hprefix
  exact ⟨rest, h.symm⟩

/-- Outside memory nothing is fetched (rule R70). -/
theorem fetchWindow_outside (h : s.cfg.memSize.toNat ≤ s.pc.toNat) : s.fetchWindow = [] := by
  rw [State.fetchWindow, maxInstrBytes, fetchBytes_succ, if_neg (not_fits_byte h)]

/-- Inside memory the window begins with the opcode byte, and the bytes after it end at the memory size. -/
theorem fetchWindow_inside (h : s.pc.toNat < s.cfg.memSize.toNat) :
    ∃ bs, s.fetchWindow = s.mem.read s.pc.toNat :: bs ∧
      bs.length = min 9 (s.cfg.memSize.toNat - (s.pc.toNat + 1)) := by
  have hsize := s.cfg.memSize.isLt
  have hnext : (s.pc + 1#64).toNat = s.pc.toNat + 1 := by
    rw [BitVec.toNat_add]
    exact Nat.mod_eq_of_lt (by simp only [BitVec.toNat_ofNat]; omega)
  refine ⟨s.fetchBytes (s.pc + 1#64) 9, ?_, ?_⟩
  · rw [State.fetchWindow, maxInstrBytes, fetchBytes_succ, if_pos ((fits_byte s s.pc).2 h)]
  · rw [fetchBytes_length, hnext]

/-- The first operand byte outside memory is the one at the memory size. -/
theorem pc_add_missing_offset {n : Nat} (h : s.pc.toNat + n = s.cfg.memSize.toNat) :
    s.pc + BitVec.ofNat 64 n = s.cfg.memSize := by
  apply BitVec.eq_of_toNat_eq
  rw [BitVec.toNat_add, BitVec.toNat_ofNat, Nat.add_mod_mod, h]
  exact Nat.mod_eq_of_lt s.cfg.memSize.isLt

end Fetching

/-- Settles O7: the step runs what it fetches. -/
theorem stepRunsTheDecodedInstruction : Obligations.StepRunsTheDecodedInstruction :=
  fun _ _ _ hrun h => step_running_ok hrun (fetchDecode_of_decode_ok h)

/-- Settles O8: the encoding in memory begins the fetch window, and whatever follows an encoding it decodes. -/
theorem stepRunsTheInstructionInMemory : Obligations.StepRunsTheInstructionInMemory := by
  intro s i hrun hwf hfit hmem
  obtain ⟨rest, hwindow⟩ := fetchWindow_eq_append (encode_length_le _ i) hfit hmem
  have hdecode := decode_encode_append hwf rest
  rw [← hwindow] at hdecode
  exact step_running_ok hrun (fetchDecode_of_decode_ok hdecode)

/-- Settles O9: the checks are the decoder's, in its order, on a window that ends at the memory size. -/
theorem stepChecksInOrder : Obligations.StepChecksInOrder := by
  intro s hrun
  refine ⟨fun hout => ?_, fun hin => ?_⟩
  · refine step_running_error hrun (fetchDecode_of_decode_error (e := .noByte) ?_)
    rw [fetchWindow_outside hout]
    rfl
  · obtain ⟨bs, hwindow, hlen⟩ := fetchWindow_inside hin
    refine ⟨fun hzero => ?_, fun hne => ⟨fun hnone => ?_, fun k hk => ?_⟩⟩
    · rw [hzero] at hwindow
      exact step_running_ok (i := .halt) hrun (fetchDecode_of_decode_ok (hwindow ▸ decode_zero _ bs))
    · exact step_running_error hrun (fetchDecode_of_decode_error (hwindow ▸ decode_illegal hne hnone bs))
    · have hdecode : decode s.cfg.opmap s.fetchWindow = decodeFields k bs := hwindow ▸ decode_of_lookup hne hk bs
      obtain ⟨hpos, hmax⟩ := width_bounds k.cls
      rw [maxInstrBytes] at hmax
      refine ⟨fun hshort => ?_, fun hfit => ?_⟩
      · have hmissing := hdecode.trans ((decodeFields_reads k).missing bs (by omega))
        have haddr := pc_add_missing_offset (s := s) (n := 1 + bs.length) (by omega)
        rw [step_running_error hrun (fetchDecode_of_decode_error hmissing), rejectCause, haddr]
      · obtain ⟨i, rest, hok, hi⟩ := (decodeFields_reads k).complete bs (by omega)
        exact ⟨i, hi, step_running_ok hrun (fetchDecode_of_decode_ok (hdecode.trans hok))⟩

end Sys2Proof.Machine
end

section
/-!
SUPPORT. HALT and the zero-operand class (rules R120 to R124): the rule each instruction runs in its frame, the fault
such a rule can raise, and what moving the program counter and writing the interrupt-enable flag leave unchanged.
-/

namespace Sys2Proof.Machine

/-! ### The rules of the zero-operand instructions -/

section Rules

variable (s : State)

theorem exec_halt : exec .halt s = .next (s.setStatus .halted) := rfl

theorem exec_nop : exec .nop s = runRule .z s fun t => .ok t := rfl

theorem exec_ret : exec .ret s = runRule .z s fun t => t.returnFrom := rfl

theorem exec_di : exec .di s = runRule .z s fun t => .ok (t.setIe false) := rfl

theorem exec_ei : exec .ei s = runRule .z s fun t => .ok (t.setIe true) := rfl

variable {s}

/-- An instruction whose rule raises a fault takes it in the state before the instruction (rule R311). -/
theorem runRule_of_error {k : OpClass} {c : FaultCause} {rule : State → Except FaultCause State}
    (h : rule (s.setPc (s.pc + BitVec.ofNat 64 k.width)) = .error c) : runRule k s rule = .next (s.takeFault c) :=
  congrArg (settle s) h

end Rules

/-! ### What the updates leave unchanged -/

section Frames

variable (s : State)

/-- A write of the program counter keeps everything else. -/
theorem setPc_frame (v : Word) : onlyMovesPc s (s.setPc v) v :=
  ⟨setPc_pc s v, setPc_reg s v, ⟨rfl, rfl, rfl, rfl⟩, ⟨rfl, rfl, rfl⟩, fun _ => rfl⟩

/-- A write of the interrupt-enable flag keeps everything else. -/
theorem setIe_frame (b : Bool) : (s.setIe b).pc = s.pc ∧ sameRegs s (s.setIe b) ∧ (s.setIe b).sp = s.sp ∧
    (s.setIe b).ip = s.ip ∧ (s.setIe b).cr = s.cr ∧ sameRun s (s.setIe b) ∧ sameMemory s (s.setIe b) :=
  ⟨rfl, setIe_reg s b, rfl, rfl, rfl, ⟨rfl, rfl, rfl⟩, fun _ => rfl⟩

/-- The common rule of DI and EI, for either value of the flag (rules R123 and R124). -/
theorem runRule_setIe (b : Bool) : ∃ t, runRule .z s (fun u => .ok (u.setIe b)) = .next t ∧ t.ie = b ∧
    t.pc = s.pc + 1#64 ∧ sameRegs s t ∧ t.sp = s.sp ∧ t.ip = s.ip ∧ t.cr = s.cr ∧ sameRun s t ∧ sameMemory s t :=
  ⟨_, runRule_of_ok rfl, setIe_ie _ b, setIe_frame (s.setPc (s.pc + 1#64)) b⟩

/-- A return that fits goes to the word at `sp` and moves `sp` past it, from any program counter (rule R122). -/
theorem returnFrom_of_canPop (v : Word) (h : s.canPop) :
    (s.setPc v).returnFrom = .ok (((s.setPc v).setSp (s.sp + 8#64)).setPc (s.mem.readWord s.sp.toNat)) :=
  (returnFrom_eq (s.setPc v)).trans (if_pos h)

/-- A return that does not fit faults on the word at `sp`, from any program counter (rule R122). -/
theorem returnFrom_of_not_canPop (v : Word) (h : ¬ s.canPop) :
    (s.setPc v).returnFrom = .error (.addressFault s.sp .word .read) :=
  (returnFrom_eq (s.setPc v)).trans (if_neg h)

end Frames

/-! ### The obligations -/

/-- Settles O22: the fetch of `0x00` and of no byte are the first checks of a step, and a halted machine has none. -/
theorem haltStopsTheMachine : Obligations.HaltStopsTheMachine := by
  refine ⟨fun _ => rfl, exec_halt, fun s hrun hin hzero => ?_, fun s hrun hout => ?_, fun s hhalt t h => ?_⟩
  · obtain ⟨-, hfetched⟩ := stepChecksInOrder s hrun
    exact (hfetched hin).1 hzero
  · exact (stepChecksInOrder s hrun).1 hout
  · rw [step_halted hhalt] at h
    cases h

/-- Settles O23: the rule of NOP adds nothing to the advance of the program counter. -/
theorem nopOnlyMovesThePc : Obligations.NopOnlyMovesThePc :=
  ⟨⟨fun _ => rfl, rfl⟩, fun s => ⟨_, (exec_nop s).trans (runRule_of_ok rfl), setPc_frame s (s.pc + 1#64)⟩⟩

/-- Settles O24: the return is one bounds check at `sp`, which the advance of the program counter does not touch. -/
theorem retPopsThePc : Obligations.RetPopsThePc := by
  refine ⟨⟨fun _ => rfl, rfl⟩, fun s => ⟨fun hfits => ?_, fun hout => ?_⟩⟩
  · exact ⟨_, (exec_ret s).trans (runRule_of_ok (returnFrom_of_canPop s _ hfits)), setPc_pc _ _, rfl, fun _ => rfl,
      rfl, rfl, rfl, ⟨rfl, rfl, rfl⟩, fun _ => rfl⟩
  · exact (exec_ret s).trans (runRule_of_error (returnFrom_of_not_canPop s _ hout))

/-- Settles O25: DI and EI run one rule, with the flag to write as its only difference. -/
theorem diAndEiWriteOnlyTheFlag : Obligations.DiAndEiWriteOnlyTheFlag :=
  ⟨⟨fun _ => rfl, rfl⟩, ⟨fun _ => rfl, rfl⟩, fun s =>
    ⟨exec_di s ▸ runRule_setIe s false, exec_ei s ▸ runRule_setIe s true⟩⟩

end Sys2Proof.Machine
end

section
/-!
SUPPORT. The one-register class without INT (rules R140 to R149): the rule each instruction runs in its frame, what a
write of one register leaves unchanged, and the two answers of a push and of a pop.
-/

namespace Sys2Proof.Machine

/-! ### The rules of the instructions that access no memory -/

section Rules

variable (a : RegNum) (s : State)

theorem exec_mfpc : exec (.mfpc a) s = runRule .r1 s fun t => .ok (t.setReg a t.pc) := rfl

theorem exec_mfsp : exec (.mfsp a) s = runRule .r1 s fun t => .ok (t.setReg a t.sp) := rfl

theorem exec_mfip : exec (.mfip a) s = runRule .r1 s fun t => .ok (t.setReg a t.ip) := rfl

theorem exec_mfcr : exec (.mfcr a) s = runRule .r1 s fun t => .ok (t.setReg a t.cr) := rfl

theorem exec_not : exec (.not a) s = runRule .r1 s fun t => .ok (t.setReg a (~~~t.reg a)) := rfl

theorem exec_mtsp : exec (.mtsp a) s = runRule .r1 s fun t => .ok (t.setSp (t.reg a)) := rfl

theorem exec_mtip : exec (.mtip a) s = runRule .r1 s fun t => .ok (t.setIp (t.reg a)) := rfl

theorem exec_mtcr : exec (.mtcr a) s = runRule .r1 s fun t => .ok (t.setCr (t.reg a)) := rfl

end Rules

/-! ### What a write of one register leaves unchanged -/

section Writes

variable (s : State)

/-- After the program counter has moved past an instruction of `n` bytes, a write of one general register is the whole
effect that `writesReg` names. -/
theorem setReg_setPc_writesReg (n : Nat) (d : RegNum) (v : Word) :
    writesReg s ((s.setPc (s.pc + BitVec.ofNat 64 n)).setReg d v) n d v :=
  ⟨setReg_reg_self _ d v, setReg_pc _ d v, fun r hr => setReg_reg_of_ne _ d r v hr, ⟨rfl, rfl, rfl, rfl⟩,
    ⟨rfl, rfl, rfl⟩, fun _ => rfl⟩

/-- An instruction whose rule writes one general register, with a value it computes from the state after the advance of
the program counter, completes and does nothing else. -/
theorem runRule_setReg (k : OpClass) (d : RegNum) (f : State → Word) :
    ∃ t, runRule k s (fun u => .ok (u.setReg d (f u))) = .next t ∧
      writesReg s t k.width d (f (s.setPc (s.pc + BitVec.ofNat 64 k.width))) :=
  ⟨_, runRule_of_ok rfl, setReg_setPc_writesReg s k.width d _⟩

/-- A write of the stack pointer keeps everything else. -/
theorem setSp_frame (v : Word) : (s.setSp v).pc = s.pc ∧ sameRegs s (s.setSp v) ∧ (s.setSp v).ip = s.ip ∧
    (s.setSp v).cr = s.cr ∧ (s.setSp v).ie = s.ie ∧ sameRun s (s.setSp v) ∧ sameMemory s (s.setSp v) :=
  ⟨rfl, setSp_reg s v, rfl, rfl, rfl, ⟨rfl, rfl, rfl⟩, fun _ => rfl⟩

/-- A write of the interrupt-vector base keeps everything else. -/
theorem setIp_frame (v : Word) : (s.setIp v).pc = s.pc ∧ sameRegs s (s.setIp v) ∧ (s.setIp v).sp = s.sp ∧
    (s.setIp v).cr = s.cr ∧ (s.setIp v).ie = s.ie ∧ sameRun s (s.setIp v) ∧ sameMemory s (s.setIp v) :=
  ⟨rfl, setIp_reg s v, rfl, rfl, rfl, ⟨rfl, rfl, rfl⟩, fun _ => rfl⟩

/-- A write of the condition register keeps everything else. -/
theorem setCr_frame (v : Word) : (s.setCr v).pc = s.pc ∧ sameRegs s (s.setCr v) ∧ (s.setCr v).sp = s.sp ∧
    (s.setCr v).ip = s.ip ∧ (s.setCr v).ie = s.ie ∧ sameRun s (s.setCr v) ∧ sameMemory s (s.setCr v) :=
  ⟨rfl, setCr_reg s v, rfl, rfl, rfl, ⟨rfl, rfl, rfl⟩, fun _ => rfl⟩

end Writes

/-! ### The two answers of a push and of a pop (rules R74 and R75) -/

section Stack

variable {s : State}

/-- A push that fits has the effect that `pushed` names and keeps the program counter. -/
theorem push_of_canPush (v : Word) (h : s.canPush) : ∃ t, s.push v = .ok t ∧ pushed s t v ∧ t.pc = s.pc := by
  refine ⟨_, (push_eq s v).trans (if_pos h), ⟨setSp_sp _ _, ?_, ?_, fun _ => rfl, rfl, rfl, rfl, ⟨rfl, rfl, rfl⟩⟩, rfl⟩
  · exact s.mem.readWord_writeWord _ v
  · exact fun p hp => s.mem.read_writeWord_outside _ p v hp

/-- A push that does not fit faults on the word below `sp`. -/
theorem push_of_not_canPush (v : Word) (h : ¬ s.canPush) :
    s.push v = .error (.addressFault (s.sp - 8#64) .word .write) :=
  (push_eq s v).trans (if_neg h)

/-- A pop that fits gets the word at `sp` and moves `sp` past it. -/
theorem pop_of_canPop (h : s.canPop) : s.pop = .ok (s.mem.readWord s.sp.toNat, s.setSp (s.sp + 8#64)) :=
  (pop_eq s).trans (if_pos h)

/-- A pop that does not fit faults on the word at `sp`. -/
theorem pop_of_not_canPop (h : ¬ s.canPop) : s.pop = .error (.addressFault s.sp .word .read) :=
  (pop_eq s).trans (if_neg h)

end Stack

/-! ### The obligations -/

/-- Settles O26: the four instructions differ only in the special register they read; MFPC reads the program counter
that has already advanced. -/
theorem specialRegisterReads : Obligations.SpecialRegisterReads := fun s a =>
  ⟨⟨fun _ => rfl, rfl⟩, ⟨fun _ => rfl, rfl⟩, ⟨fun _ => rfl, rfl⟩, ⟨fun _ => rfl, rfl⟩,
    exec_mfpc a s ▸ runRule_setReg s .r1 a State.pc, exec_mfsp a s ▸ runRule_setReg s .r1 a State.sp,
    exec_mfip a s ▸ runRule_setReg s .r1 a State.ip, exec_mfcr a s ▸ runRule_setReg s .r1 a State.cr⟩

/-- Settles O27: the value written is the register's complement, and a complement flips each bit of a word. -/
theorem notComplementsInPlace : Obligations.NotComplementsInPlace := by
  refine fun s a => ⟨⟨fun _ => rfl, rfl⟩, ?_⟩
  obtain ⟨t, hnext, hwrites⟩ := runRule_setReg s .r1 a fun u => ~~~u.reg a
  refine ⟨t, ~~~s.reg a, (exec_not a s).trans hnext, hwrites, fun i hi => ?_⟩
  rw [BitVec.getLsbD_not, decide_eq_true hi, Bool.true_and]

/-- Settles O28: the push runs after the advance of the program counter, which moves neither `sp` nor the bound. -/
theorem pushStoresBelowSp : Obligations.PushStoresBelowSp := by
  refine fun s a => ⟨⟨fun _ => rfl, rfl⟩, fun hfits => ?_, fun hout => ?_⟩
  · obtain ⟨t, hpush, hpushed, hpc⟩ := push_of_canPush (s := s.setPc (s.pc + 2#64)) (s.reg a) hfits
    exact ⟨t, (exec_push a s).trans (runRule_of_ok hpush), hpushed, hpc⟩
  · exact (exec_push a s).trans (runRule_of_error (push_of_not_canPush (s := s.setPc (s.pc + 2#64)) (s.reg a) hout))

/-- Settles O29: the load is one bounds check at `sp`, and the register is written only once it has passed. -/
theorem popLoadsFromSp : Obligations.PopLoadsFromSp := by
  refine fun s a => ⟨⟨fun _ => rfl, rfl⟩, fun hfits => ?_, fun hout => ?_⟩
  · have hpop := pop_of_canPop (s := s.setPc (s.pc + 2#64)) hfits
    exact ⟨_, (exec_pop a s).trans (runRule_of_ok (bind_eq_ok_iff.2 ⟨_, hpop, rfl⟩)), setReg_reg_self _ a _, rfl, rfl,
      fun r hr => setReg_reg_of_ne _ a r _ hr, rfl, rfl, rfl, ⟨rfl, rfl, rfl⟩, fun _ => rfl⟩
  · have hpop := pop_of_not_canPop (s := s.setPc (s.pc + 2#64)) hout
    exact (exec_pop a s).trans (runRule_of_error (congrArg (· >>= _) hpop))

/-- Settles O31: each rule is the unchecked write of its register, and the frame of that write is the rest. -/
theorem specialRegisterWrites : Obligations.SpecialRegisterWrites := fun s a =>
  ⟨⟨fun _ => rfl, rfl⟩, ⟨fun _ => rfl, rfl⟩, ⟨fun _ => rfl, rfl⟩,
    ⟨_, (exec_mtsp a s).trans (runRule_of_ok rfl), setSp_sp _ _, setSp_frame (s.setPc (s.pc + 2#64)) (s.reg a)⟩,
    ⟨_, (exec_mtip a s).trans (runRule_of_ok rfl), setIp_ip _ _, setIp_frame (s.setPc (s.pc + 2#64)) (s.reg a)⟩,
    ⟨_, (exec_mtcr a s).trans (runRule_of_ok rfl), setCr_cr _ _, setCr_frame (s.setPc (s.pc + 2#64)) (s.reg a)⟩⟩

end Sys2Proof.Machine
end

section
/-!
SUPPORT. The two-register class (rules R171 to R191): the rule each instruction runs in its frame, what the arithmetic
and the shifts compute, the flag a compare writes and the test a branch makes of it, and the two ends of a branch.
-/

namespace Sys2Proof.Machine

/-! ### The rules of the two-register instructions but SB -/

section Rules

variable (a b : RegNum) (s : State)

theorem exec_mov : exec (.mov a b) s = runRule .r2 s fun t => .ok (t.setReg a (t.reg b)) := rfl

theorem exec_lb : exec (.lb a b) s =
    runRule .r2 s fun t => t.loadByte (t.reg b) >>= fun v => .ok (t.setReg a (zextByte v)) := rfl

theorem exec_add : exec (.add a b) s = runRule .r2 s fun t => .ok (t.setReg a (addSigned (t.reg a) (t.reg b))) := rfl

theorem exec_addu : exec (.addu a b) s =
    runRule .r2 s fun t => .ok (t.setReg a (addUnsigned (t.reg a) (t.reg b))) := rfl

theorem exec_sub : exec (.sub a b) s = runRule .r2 s fun t => .ok (t.setReg a (subSigned (t.reg a) (t.reg b))) := rfl

theorem exec_subu : exec (.subu a b) s =
    runRule .r2 s fun t => .ok (t.setReg a (subUnsigned (t.reg a) (t.reg b))) := rfl

theorem exec_mul : exec (.mul a b) s = runRule .r2 s fun t => .ok (t.setReg a (mulSigned (t.reg a) (t.reg b))) := rfl

theorem exec_mulu : exec (.mulu a b) s =
    runRule .r2 s fun t => .ok (t.setReg a (mulUnsigned (t.reg a) (t.reg b))) := rfl

theorem exec_and : exec (.and a b) s = runRule .r2 s fun t => .ok (t.setReg a (t.reg a &&& t.reg b)) := rfl

theorem exec_or : exec (.or a b) s = runRule .r2 s fun t => .ok (t.setReg a (t.reg a ||| t.reg b)) := rfl

theorem exec_xor : exec (.xor a b) s = runRule .r2 s fun t => .ok (t.setReg a (t.reg a ^^^ t.reg b)) := rfl

theorem exec_shl : exec (.shl a b) s = runRule .r2 s fun t => .ok (t.setReg a (shiftLeft (t.reg a) (t.reg b))) := rfl

theorem exec_shr : exec (.shr a b) s = runRule .r2 s fun t => .ok (t.setReg a (shiftRight (t.reg a) (t.reg b))) := rfl

theorem exec_cmp : exec (.cmp a b) s =
    runRule .r2 s fun t => .ok (t.updateCr (cmpFlagSigned (t.reg a) (t.reg b))) := rfl

theorem exec_cmpu : exec (.cmpu a b) s =
    runRule .r2 s fun t => .ok (t.updateCr (cmpFlagUnsigned (t.reg a) (t.reg b))) := rfl

theorem exec_bc : exec (.bc a b) s =
    runRule .r2 s fun t => .ok (if taken t.cr (t.reg a) then t.setPc (t.reg b) else t) := rfl

theorem exec_bcl : exec (.bcl a b) s = runRule .r2 s fun t =>
    if taken t.cr (t.reg a) then t.push t.pc >>= fun u => .ok (u.setPc (t.reg b)) else .ok t := rfl

end Rules

/-! ### What the operations compute (rules R172 to R184 and R191) -/

section Values

variable (a b : Word)

theorem lowByte_toNat : (lowByte a).toNat = a.toNat % 256 := BitVec.toNat_setWidth 8 a

theorem zextByte_toNat (v : Byte) : (zextByte v).toNat = v.toNat := BitVec.toNat_setWidth_of_le (by decide)

/-- A word made from an integer is that integer modulo 2^64. -/
theorem toNat_ofInt_word (x : Int) : ((BitVec.ofInt 64 x).toNat : Int) = x % 2 ^ 64 :=
  (congrArg Int.ofNat (BitVec.toNat_ofInt x)).trans (Int.toNat_of_nonneg (Int.emod_nonneg x (by decide)))

/-- A word made from a natural number is that number modulo 2^64. -/
theorem toNat_ofNat_word (n : Nat) : ((BitVec.ofNat 64 n).toNat : Int) = n % 2 ^ 64 :=
  congrArg Int.ofNat (BitVec.toNat_ofNat n 64)

/-- A word is the word made from its unsigned value, taken as a natural number. -/
theorem ofNat_toNat_word : BitVec.ofNat 64 a.toNat = a := (BitVec.ofNat_toNat 64 a).trans (BitVec.setWidth_eq a)

/-- A word is the word made from its unsigned value, taken as an integer. -/
theorem ofInt_toNat_word : BitVec.ofInt 64 a.toNat = a :=
  (BitVec.ofInt_natCast 64 a.toNat).trans (ofNat_toNat_word a)

/-- A difference of integers keeps its low 64 bits when its terms are cut to words first. -/
theorem ofInt_sub_word (x y : Int) : BitVec.ofInt 64 (x - y) = BitVec.ofInt 64 x - BitVec.ofInt 64 y := by
  rw [Int.sub_eq_add_neg, BitVec.ofInt_add, BitVec.ofInt_neg, BitVec.sub_eq_add_neg]

theorem addSigned_eq_add : addSigned a b = a + b := by
  rw [addSigned, BitVec.ofInt_add, BitVec.ofInt_toInt, BitVec.ofInt_toInt]

theorem addUnsigned_eq_add : addUnsigned a b = a + b := by
  rw [addUnsigned, BitVec.ofNat_add, ofNat_toNat_word, ofNat_toNat_word]

theorem subSigned_eq_sub : subSigned a b = a - b := by
  rw [subSigned, ofInt_sub_word, BitVec.ofInt_toInt, BitVec.ofInt_toInt]

theorem subUnsigned_eq_sub : subUnsigned a b = a - b := by
  rw [subUnsigned, ofInt_sub_word, ofInt_toNat_word, ofInt_toNat_word]

theorem mulSigned_eq_mul : mulSigned a b = a * b := by
  rw [mulSigned, BitVec.ofInt_mul, BitVec.ofInt_toInt, BitVec.ofInt_toInt]

theorem mulUnsigned_eq_mul : mulUnsigned a b = a * b := by
  rw [mulUnsigned, BitVec.ofNat_mul, ofNat_toNat_word, ofNat_toNat_word]

/-- A left shift multiplies by a power of two, modulo 2^64; from 64 on nothing is left (rule R183). -/
theorem shiftLeft_toNat :
    (shiftLeft a b).toNat = if b.toNat ≥ 64 then 0 else a.toNat * 2 ^ b.toNat % 2 ^ 64 := by
  unfold shiftLeft
  split_ifs
  · rfl
  · rw [BitVec.toNat_shiftLeft, Nat.shiftLeft_eq]

/-- A right shift divides by a power of two; from 64 on nothing is left (rule R184). -/
theorem shiftRight_toNat : (shiftRight a b).toNat = if b.toNat ≥ 64 then 0 else a.toNat / 2 ^ b.toNat := by
  unfold shiftRight
  split_ifs
  · rfl
  · rw [BitVec.toNat_ushiftRight, Nat.shiftRight_eq_div_pow]

end Values

/-- An instruction that computes `x[a]` from the old `x[a]` and `x[b]` completes and does nothing else, and what holds
of the value computed holds of the value written. -/
theorem exec_binary {i : Instr} {a b : RegNum} {s : State} {op : Word → Word → Word} {P : Word → Prop}
    (hi : exec i s = runRule .r2 s fun u => .ok (u.setReg a (op (u.reg a) (u.reg b))))
    (hP : P (op (s.reg a) (s.reg b))) : ∃ t v, exec i s = .next t ∧ writesReg s t 3 a v ∧ P v := by
  obtain ⟨t, hnext, hwrites⟩ := runRule_setReg s .r2 a fun u => op (u.reg a) (u.reg b)
  exact ⟨t, _, hi.trans hnext, hwrites, hP⟩

/-! ### The flag of a compare (rules R185 to R187) -/

section Flags

variable {p q : Int}

theorem flagOf_of_lt (h : p < q) : flagOf p q = crLt := if_pos h

theorem flagOf_of_gt (h : p > q) : flagOf p q = crGt := (if_neg (Int.lt_asymm h)).trans (if_pos h)

theorem flagOf_of_eq (h : p = q) : flagOf p q = crEq :=
  (if_neg (Int.not_lt.2 h.ge)).trans (if_neg (Int.not_lt.2 h.le))

/-- A compare sets one flag, so never both LT and EQ. -/
theorem flagOf_lt_eq_exclusive (p q : Int) (hlt : (flagOf p q).getLsbD 63 = true) :
    (flagOf p q).getLsbD 61 = false := by
  obtain h | h | h := Int.lt_trichotomy p q
  · rw [flagOf_of_lt h]
    decide
  · rw [flagOf_of_eq h] at hlt
    exact absurd hlt (by decide)
  · rw [flagOf_of_gt h]
    decide

variable {c : CmpCrUpdate}

theorem updatedCr_intended (old f : Word) (h : c = .intended) : updatedCr c old f = f := by
  rw [h, updatedCr]

theorem updatedCr_literalNoop (old f : Word) (h : c = .literalNoop) : updatedCr c old f = old := by
  rw [h, updatedCr]

theorem updatedCr_literalAnd (old f : Word) (h : c = .literalAnd) : updatedCr c old f = old &&& f := by
  rw [h, updatedCr]

/-- `t` is `s` after an instruction that compared and got the flag `f`: the parameter says what `cr` holds, the program
counter is past three bytes, and nothing else changed (rule R185). -/
def writesFlag (s t : State) (f : Word) : Prop :=
  (s.cfg.cmpCrUpdate = .intended → t.cr = f) ∧
  (s.cfg.cmpCrUpdate = .literalNoop → t.cr = s.cr) ∧
  (s.cfg.cmpCrUpdate = .literalAnd → t.cr = s.cr &&& f) ∧
  t.pc = s.pc + 3#64 ∧ sameRegs s t ∧ t.sp = s.sp ∧ t.ip = s.ip ∧ t.ie = s.ie ∧ sameRun s t ∧ sameMemory s t

/-- The common rule of CMP and CMPU, for any flag computed from the state after the advance of the program counter. -/
theorem runRule_updateCr (s : State) (f : State → Word) :
    ∃ t, runRule .r2 s (fun u => .ok (u.updateCr (f u))) = .next t ∧ writesFlag s t (f (s.setPc (s.pc + 3#64))) :=
  ⟨_, runRule_of_ok rfl, updatedCr_intended _ _, updatedCr_literalNoop _ _, updatedCr_literalAnd _ _,
    setCr_frame (s.setPc (s.pc + 3#64)) _⟩

/-- After either compare under `intended`, `cr` is the one flag of an order. -/
theorem compare_cr_intended {s t : State} {a b : RegNum} (hmode : s.cfg.cmpCrUpdate = .intended)
    (h : exec (.cmp a b) s = .next t ∨ exec (.cmpu a b) s = .next t) : ∃ p q, t.cr = flagOf p q := by
  obtain h | h := h
  · obtain ⟨u, hnext, hcr, -⟩ := runRule_updateCr s fun u => cmpFlagSigned (u.reg a) (u.reg b)
    cases h.symm.trans ((exec_cmp a b s).trans hnext)
    exact ⟨_, _, hcr hmode⟩
  · obtain ⟨u, hnext, hcr, -⟩ := runRule_updateCr s fun u => cmpFlagUnsigned (u.reg a) (u.reg b)
    cases h.symm.trans ((exec_cmpu a b s).trans hnext)
    exact ⟨_, _, hcr hmode⟩

end Flags

/-! ### The branch test and the two ends of a branch (rules R188 to R190) -/

section Branches

theorem taken_iff (cr m : Word) : taken cr m = true ↔ cr &&& m = m := decide_eq_true_iff

/-- The branch test is inclusion of the mask's bits in those of `cr`. -/
theorem taken_iff_bits (cr m : Word) :
    taken cr m = true ↔ ∀ i, i < 64 → m.getLsbD i = true → cr.getLsbD i = true := by
  rw [taken_iff]
  constructor
  · intro h i _ hm
    have hbit : (cr.getLsbD i && m.getLsbD i) = m.getLsbD i :=
      BitVec.getLsbD_and.symm.trans (congrArg (BitVec.getLsbD · i) h)
    rw [hm, Bool.and_true] at hbit
    exact hbit
  · intro h
    refine BitVec.eq_of_getLsbD_eq fun i hi => ?_
    rw [BitVec.getLsbD_and, Bool.and_eq_right_iff_imp]
    exact h i hi

variable {s : State} {a : RegNum} (b : RegNum)

theorem exec_bc_of_taken (h : s.cr &&& s.reg a = s.reg a) : exec (.bc a b) s = .next (s.setPc (s.reg b)) :=
  (exec_bc a b s).trans (runRule_of_ok (congrArg Except.ok (if_pos ((taken_iff _ _).2 h))))

theorem exec_bc_of_not_taken (h : s.cr &&& s.reg a ≠ s.reg a) : exec (.bc a b) s = .next (s.setPc (s.pc + 3#64)) :=
  (exec_bc a b s).trans (runRule_of_ok (congrArg Except.ok (if_neg (mt (taken_iff _ _).1 h))))

theorem exec_bcl_of_taken (h : s.cr &&& s.reg a = s.reg a) : exec (.bcl a b) s =
    runRule .r2 s fun t => t.push t.pc >>= fun u => .ok (u.setPc (t.reg b)) :=
  (exec_bcl a b s).trans (congrArg (settle s) (if_pos ((taken_iff _ _).2 h)))

theorem exec_bcl_of_not_taken (h : s.cr &&& s.reg a ≠ s.reg a) : exec (.bcl a b) s = .next (s.setPc (s.pc + 3#64)) :=
  (exec_bcl a b s).trans (runRule_of_ok (if_neg (mt (taken_iff _ _).1 h)))

end Branches

/-! ### The obligations -/

/-- Settles O43: a taken mask with both flags would set both in `cr`, which after a compare holds one flag only. -/
theorem branchTestIsBitInclusion : Obligations.BranchTestIsBitInclusion := by
  refine ⟨taken_iff_bits, fun cr => (taken_iff cr 0#64).2 BitVec.and_zero, fun s t a b m hmode hexec h63 h61 => ?_⟩
  obtain ⟨p, q, hcr⟩ := compare_cr_intended hmode hexec
  refine Bool.eq_false_iff.2 fun htaken => ?_
  have hbits := (taken_iff_bits _ m).1 htaken
  rw [hcr] at hbits
  have heq := flagOf_lt_eq_exclusive p q (hbits 63 (by decide) h63)
  rw [hbits 61 (by decide) h61] at heq
  cases heq

/-- Settles O35: the advance of the program counter leaves the register that is copied. -/
theorem movCopiesARegister : Obligations.MovCopiesARegister := fun s a b =>
  ⟨⟨fun _ => rfl, rfl⟩, exec_mov a b s ▸ runRule_setReg s .r2 a (·.reg b)⟩

/-- Settles O36: the load is one bounds check, and the register is written only once it has passed. -/
theorem lbLoadsAByte : Obligations.LbLoadsAByte := by
  intro s a b
  obtain ⟨hout, hin⟩ := byteAccesses (s.setPc (s.pc + 3#64)) (s.reg b) 0#8
  refine ⟨⟨fun _ => rfl, rfl⟩, fun h => ?_, fun h => ?_⟩
  · obtain ⟨hload, -⟩ := hin h
    exact ⟨_, _, (exec_lb a b s).trans (runRule_of_ok (bind_eq_ok_iff.2 ⟨_, hload, rfl⟩)),
      setReg_setPc_writesReg s 3 a _, zextByte_toNat _⟩
  · obtain ⟨hload, -⟩ := hout h
    exact (exec_lb a b s).trans (runRule_of_error (congrArg (· >>= _) hload))

/-- Settles O37: the store is the checked byte store, run after the advance of the program counter. -/
theorem sbStoresAByte : Obligations.SbStoresAByte := by
  intro s a b
  obtain ⟨hout, hin⟩ := byteAccesses (s.setPc (s.pc + 3#64)) (s.reg a) (lowByte (s.reg b))
  refine ⟨⟨fun _ => rfl, rfl⟩, fun h => ?_, fun h => ?_⟩
  · obtain ⟨-, -, t, hstore, hread, hframe⟩ := hin h
    exact ⟨t, (exec_sb a b s).trans (runRule_of_ok hstore), hread ▸ lowByte_toNat _, hframe⟩
  · obtain ⟨-, -, hstore⟩ := hout h
    exact (exec_sb a b s).trans (runRule_of_error hstore)

/-- Settles O38: each instruction writes the word made from the exact integer result, which is that result modulo
2^64. -/
theorem arithmeticResults : Obligations.ArithmeticResults := fun s a b =>
  ⟨⟨fun _ => rfl, rfl⟩, ⟨fun _ => rfl, rfl⟩, ⟨fun _ => rfl, rfl⟩, ⟨fun _ => rfl, rfl⟩, ⟨fun _ => rfl, rfl⟩,
    ⟨fun _ => rfl, rfl⟩, exec_binary (exec_add a b s) (toNat_ofInt_word _),
    exec_binary (exec_addu a b s) (toNat_ofNat_word _), exec_binary (exec_sub a b s) (toNat_ofInt_word _),
    exec_binary (exec_subu a b s) (toNat_ofInt_word _), exec_binary (exec_mul a b s) (toNat_ofInt_word _),
    exec_binary (exec_mulu a b s) (toNat_ofNat_word _)⟩

/-- Settles O39: the word operations work bit by bit. -/
theorem logicalResults : Obligations.LogicalResults := fun s a b =>
  ⟨⟨fun _ => rfl, rfl⟩, ⟨fun _ => rfl, rfl⟩, ⟨fun _ => rfl, rfl⟩,
    exec_binary (exec_and a b s) fun _ _ => BitVec.getLsbD_and,
    exec_binary (exec_or a b s) fun _ _ => BitVec.getLsbD_or,
    exec_binary (exec_xor a b s) fun _ _ => BitVec.getLsbD_xor⟩

/-- Settles O40: the shifts are a product and a quotient by a power of two below 64, and 0 from there on. -/
theorem shiftResults : Obligations.ShiftResults := fun s a b =>
  ⟨⟨fun _ => rfl, rfl⟩, ⟨fun _ => rfl, rfl⟩, exec_binary (exec_shl a b s) (shiftLeft_toNat _ _),
    exec_binary (exec_shr a b s) (shiftRight_toNat _ _)⟩

/-- Settles O41: both readings of the operands give the same sum, difference and product of words. -/
theorem signedAndUnsignedArithmeticAgree : Obligations.SignedAndUnsignedArithmeticAgree := by
  refine fun s a b => ⟨?_, ?_, ?_⟩
  · simp only [exec_add, exec_addu, addSigned_eq_add, addUnsigned_eq_add]
  · simp only [exec_sub, exec_subu, subSigned_eq_sub, subUnsigned_eq_sub]
  · simp only [exec_mul, exec_mulu, mulSigned_eq_mul, mulUnsigned_eq_mul]

/-- Settles O42: the two compares differ only in the integers their operands are read as. -/
theorem comparesWriteTheFlag : Obligations.ComparesWriteTheFlag := by
  refine fun s a b => ⟨⟨fun _ => rfl, rfl⟩, ⟨fun _ => rfl, rfl⟩, ?_, ?_⟩
  · obtain ⟨t, hnext, hwrites⟩ := runRule_updateCr s fun u => cmpFlagSigned (u.reg a) (u.reg b)
    exact ⟨t, _, (exec_cmp a b s).trans hnext, flagOf_of_lt, flagOf_of_gt,
      fun h => flagOf_of_eq (congrArg BitVec.toInt h), hwrites⟩
  · obtain ⟨t, hnext, hwrites⟩ := runRule_updateCr s fun u => cmpFlagUnsigned (u.reg a) (u.reg b)
    exact ⟨t, _, (exec_cmpu a b s).trans hnext, fun h => flagOf_of_lt (Int.ofNat_lt.2 h),
      fun h => flagOf_of_gt (Int.ofNat_lt.2 h), fun h => flagOf_of_eq (congrArg (fun v => (v.toNat : Int)) h), hwrites⟩

/-- Settles O44: either way BC only writes the program counter. -/
theorem bcBranchesOnTheMask : Obligations.BcBranchesOnTheMask := fun s _ b =>
  ⟨⟨fun _ => rfl, rfl⟩, fun h => ⟨_, exec_bc_of_taken b h, setPc_frame s _⟩,
    fun h => ⟨_, exec_bc_of_not_taken b h, setPc_frame s _⟩⟩

/-- Settles O45: the push runs after the advance of the program counter and before the jump, which leaves what was
pushed. -/
theorem bclLinksOnTheStack : Obligations.BclLinksOnTheStack := by
  refine fun s a b => ⟨⟨fun _ => rfl, rfl⟩, fun h => ⟨fun hfits => ?_, fun hout => ?_⟩, fun h => ?_⟩
  · obtain ⟨u, hpush, hpushed, -⟩ := push_of_canPush (s := s.setPc (s.pc + 3#64)) (s.pc + 3#64) hfits
    exact ⟨u.setPc (s.reg b), (exec_bcl_of_taken b h).trans (runRule_of_ok (bind_eq_ok_iff.2 ⟨u, hpush, rfl⟩)), hpushed,
      setPc_pc u _⟩
  · have hpush := push_of_not_canPush (s := s.setPc (s.pc + 3#64)) (s.pc + 3#64) hout
    exact (exec_bcl_of_taken b h).trans (runRule_of_error (congrArg (· >>= _) hpush))
  · exact ⟨_, exec_bcl_of_not_taken b h, setPc_frame s _⟩

end Sys2Proof.Machine
end

section
/-!
SUPPORT. The three-register class (rules R220 to R228): the rule each instruction runs in its frame, what the divisions
and the mask merge compute, the two writes of a division, and what a block transfer leaves in its registers and in its
word.
-/

namespace Sys2Proof.Machine

/-! ### The rules of the three-register instructions -/

section Rules

variable (a b c : RegNum) (s : State)

theorem exec_div : exec (.div a b c) s = runRule .r3 s fun t =>
    if t.reg b = 0#64 then .error .divideByZero
    else if divOverflows (t.reg a) (t.reg b) then .error .divideOverflow
    else .ok ((t.setReg a (quotSigned (t.reg a) (t.reg b))).setReg c (remSigned (t.reg a) (t.reg b))) := rfl

theorem exec_divu : exec (.divu a b c) s = runRule .r3 s fun t =>
    if t.reg b = 0#64 then .error .divideByZero
    else .ok ((t.setReg a (quotUnsigned (t.reg a) (t.reg b))).setReg c (remUnsigned (t.reg a) (t.reg b))) := rfl

theorem exec_bal : exec (.bal a b c) s = runRule .r3 s fun t =>
    .ok (if taken t.cr (t.reg a) then (t.setReg c t.pc).setPc (t.reg b) else t) := rfl

theorem exec_mskr : exec (.mskr a b c) s =
    runRule .r3 s fun t => .ok (t.setReg a (maskMerge (t.reg a) (t.reg b) (t.reg c))) := rfl

theorem exec_msks : exec (.msks a b c) s = runRule .r3 s fun t =>
    t.loadWord (t.reg c) >>= fun old => t.storeWord (t.reg c) (maskMerge old (t.reg b) (t.reg a)) := rfl

variable {a b}

/-- On a descending range LSM faults whatever the address is (rule R224). -/
theorem exec_lsm_of_lt (h : b < a) : exec (.lsm a b c) s = .next (s.takeFault (.blockRange a b)) :=
  congrArg (settle s) (if_pos h)

theorem exec_lsm_of_le (h : a ≤ b) : exec (.lsm a b c) s = runRule .r3 s fun t =>
    t.loadWord (t.reg c) >>= fun v => .ok (t.setRegs (regRun a b) v) :=
  congrArg (settle s) (if_neg (BitVec.not_lt.2 h))

/-- On a descending range STM faults whatever the address is (rule R225). -/
theorem exec_stm_of_lt (h : b < a) : exec (.stm a b c) s = .next (s.takeFault (.blockRange a b)) :=
  congrArg (settle s) (if_pos h)

theorem exec_stm_of_le (h : a ≤ b) : exec (.stm a b c) s = runRule .r3 s fun t =>
    t.check (t.reg c) .word .write >>= fun _ => .ok (t.setMem (t.storeRun (t.reg c).toNat (regRun a b))) :=
  congrArg (settle s) (if_neg (BitVec.not_lt.2 h))

end Rules

/-! ### What the divisions compute (rules R221, R222 and R228) -/

section Division

/-- The overflow test as a test of the two words. -/
theorem divOverflows_iff (n d : Word) :
    divOverflows n d = true ↔ n = 0x8000000000000000#64 ∧ d = 0xFFFFFFFFFFFFFFFF#64 := by
  rw [divOverflows, Bool.and_eq_true, decide_eq_true_iff, decide_eq_true_iff, ← BitVec.toInt_inj, ← BitVec.toInt_inj]
  exact Iff.rfl

theorem quotSigned_eq_sdiv (n d : Word) : quotSigned n d = n.sdiv d :=
  BitVec.eq_of_toInt_eq ((BitVec.toInt_ofInt _).trans (BitVec.toInt_sdiv n d).symm)

/-- What is left of the dividend is the remainder of the division that rounds toward zero. -/
theorem sub_tdiv_mul (x y : Int) : x - x.tdiv y * y = x.tmod y := by
  rw [Int.tmod_def, Int.mul_comm]

theorem remSigned_eq_srem (n d : Word) : remSigned n d = n.srem d := by
  rw [remSigned, sub_tdiv_mul, ← BitVec.toInt_srem, BitVec.ofInt_toInt]

/-- But for the one overflow the exact quotient is a word. -/
theorem quotSigned_toInt {n d : Word} (h : ¬ (n = 0x8000000000000000#64 ∧ d = 0xFFFFFFFFFFFFFFFF#64)) :
    (quotSigned n d).toInt = n.toInt.tdiv d.toInt := by
  rw [quotSigned_eq_sdiv]
  exact BitVec.toInt_sdiv_of_ne_or_ne n d (not_and_or.1 h)

/-- The exact remainder always is a word. -/
theorem remSigned_toInt (n d : Word) : (remSigned n d).toInt = n.toInt - n.toInt.tdiv d.toInt * d.toInt := by
  rw [remSigned_eq_srem, BitVec.toInt_srem, sub_tdiv_mul]

theorem quotUnsigned_toNat (n d : Word) : (quotUnsigned n d).toNat = n.toNat / d.toNat :=
  (BitVec.toNat_ofNat _ _).trans (Nat.mod_eq_of_lt ((Nat.div_le_self _ _).trans_lt n.isLt))

theorem remUnsigned_toNat (n d : Word) : (remUnsigned n d).toNat = n.toNat % d.toNat :=
  (BitVec.toNat_ofNat _ _).trans (Nat.mod_eq_of_lt ((Nat.mod_le _ _).trans_lt n.isLt))

/-- The remainder of a division that rounds toward zero is 0 or has the dividend's sign. -/
theorem tmod_eq_zero_or_sameSign (x y : Int) :
    x.tmod y = 0 ∨ (0 < x.tmod y ∧ 0 < x) ∨ (x.tmod y < 0 ∧ x < 0) := by
  have hsign := Int.sign_tmod x y
  split_ifs at hsign with hdvd
  · exact .inl (Int.sign_eq_zero_iff_zero.1 hsign)
  · obtain hneg | rfl | hpos := Int.lt_trichotomy x 0
    · exact .inr (.inr ⟨Int.sign_eq_neg_one_iff_neg.1 (hsign.trans (Int.sign_eq_neg_one_of_neg hneg)), hneg⟩)
    · exact absurd (Int.dvd_zero y) hdvd
    · exact .inr (.inl ⟨Int.sign_eq_one_iff_pos.1 (hsign.trans (Int.sign_eq_one_of_pos hpos)), hpos⟩)

/-- The remainder of a division that rounds toward zero is smaller than the divisor in magnitude. -/
theorem natAbs_tmod_lt {x y : Int} (hy : y ≠ 0) : (x.tmod y).natAbs < y.natAbs := by
  rw [Int.natAbs_tmod]
  exact Nat.mod_lt _ (Int.natAbs_pos.2 hy)

end Division

/-! ### The two writes of a division (rules R220 to R222) -/

section Divide

/-- `t` is `s` past a three-register instruction that wrote `q` to general register `a` and then `r` to `c`, so `r` is
what stays where the two are one register; nothing else changed. -/
def writesQuotRem (s t : State) (a c : RegNum) (q r : Word) : Prop :=
  (a ≠ c → t.reg a = q) ∧ t.reg c = r ∧ (∀ x, x ≠ a → x ≠ c → t.reg x = s.reg x) ∧
    t.pc = s.pc + 4#64 ∧ sameSpecials s t ∧ sameRun s t ∧ sameMemory s t

theorem setReg_setReg_writesQuotRem (s : State) (a c : RegNum) (q r : Word) :
    writesQuotRem s (((s.setPc (s.pc + 4#64)).setReg a q).setReg c r) a c q r := by
  refine ⟨fun hac => ?_, setReg_reg_self _ c r, fun x hxa hxc => ?_, rfl, ⟨rfl, rfl, rfl, rfl⟩, ⟨rfl, rfl, rfl⟩,
    fun _ => rfl⟩
  · rw [setReg_reg_of_ne _ c a r hac, setReg_reg_self]
  · rw [setReg_reg_of_ne _ c x r hxc, setReg_reg_of_ne _ a x q hxa, setPc_reg]

variable {s : State} {a b : RegNum} (c : RegNum)

/-- DIV completes where the divisor is not 0 and the quotient is a word. -/
theorem exec_div_completes (hzero : s.reg b ≠ 0#64)
    (hover : ¬ (s.reg a = 0x8000000000000000#64 ∧ s.reg b = 0xFFFFFFFFFFFFFFFF#64)) :
    ∃ t, exec (.div a b c) s = .next t ∧
      writesQuotRem s t a c (quotSigned (s.reg a) (s.reg b)) (remSigned (s.reg a) (s.reg b)) :=
  have hrule := (if_neg hzero).trans (if_neg (mt (divOverflows_iff _ _).1 hover))
  ⟨_, (exec_div a b c s).trans (runRule_of_ok hrule), setReg_setReg_writesQuotRem s a c _ _⟩

/-- DIVU completes where the divisor is not 0. -/
theorem exec_divu_completes (hzero : s.reg b ≠ 0#64) :
    ∃ t, exec (.divu a b c) s = .next t ∧
      writesQuotRem s t a c (quotUnsigned (s.reg a) (s.reg b)) (remUnsigned (s.reg a) (s.reg b)) :=
  ⟨_, (exec_divu a b c s).trans (runRule_of_ok (if_neg hzero)), setReg_setReg_writesQuotRem s a c _ _⟩

end Divide

/-! ### The two ends of a BAL (rule R223) -/

section BranchAndLink

variable {s : State} {a : RegNum} (b c : RegNum)

theorem exec_bal_of_taken (h : s.cr &&& s.reg a = s.reg a) :
    exec (.bal a b c) s = .next (((s.setPc (s.pc + 4#64)).setReg c (s.pc + 4#64)).setPc (s.reg b)) :=
  (exec_bal a b c s).trans (runRule_of_ok (congrArg Except.ok (if_pos ((taken_iff _ _).2 h))))

theorem exec_bal_of_not_taken (h : s.cr &&& s.reg a ≠ s.reg a) :
    exec (.bal a b c) s = .next (s.setPc (s.pc + 4#64)) :=
  (exec_bal a b c s).trans (runRule_of_ok (congrArg Except.ok (if_neg (mt (taken_iff _ _).1 h))))

end BranchAndLink

/-! ### The word accesses on either side of their bound, and the block transfers (rules R64, R66, R224, R225) -/

section Block

variable {s : State} {p : Word} {a b : RegNum}

theorem loadWord_of_inside (h : p.toNat + 8 ≤ s.cfg.memSize.toNat) : s.loadWord p = .ok (s.mem.readWord p.toNat) :=
  (loadWord_eq s p).trans (if_pos ((fits_word s p).2 h))

theorem loadWord_of_outside (h : s.cfg.memSize.toNat < p.toNat + 8) :
    s.loadWord p = .error (.addressFault p .word .read) :=
  (loadWord_eq s p).trans (if_neg (not_fits_word h))

theorem storeWord_of_inside (v : Word) (h : p.toNat + 8 ≤ s.cfg.memSize.toNat) :
    s.storeWord p v = .ok (s.setMem (s.mem.writeWord p.toNat v)) :=
  (storeWord_eq s p v).trans (if_pos ((fits_word s p).2 h))

/-- A write of one word to a run of registers keeps everything but the general registers. -/
theorem setRegs_frame (s : State) (rs : List RegNum) (v : Word) : (s.setRegs rs v).pc = s.pc ∧
    sameSpecials s (s.setRegs rs v) ∧ sameRun s (s.setRegs rs v) ∧ sameMemory s (s.setRegs rs v) :=
  ⟨setRegs_pc s rs v, ⟨setRegs_sp s rs v, setRegs_ip s rs v, setRegs_cr s rs v, setRegs_ie s rs v⟩,
    ⟨setRegs_cfg s rs v, setRegs_status s rs v, setRegs_out s rs v⟩,
    fun i => congrArg (Memory.read · i) (setRegs_mem s rs v)⟩

/-- Every register of the run holds the word written to the run. -/
theorem setRegs_regRun_reg_inside (v : Word) {r : RegNum} (ha : a ≤ r) (hb : r ≤ b) :
    (s.setRegs (regRun a b) v).reg r = v :=
  (setRegs_reg s _ v r).trans (if_pos ((mem_regRun a b r).2 ⟨ha, hb⟩))

/-- A register below or above the run holds what it held. -/
theorem setRegs_regRun_reg_outside (v : Word) {r : RegNum} (h : r < a ∨ b < r) :
    (s.setRegs (regRun a b) v).reg r = s.reg r := by
  refine (setRegs_reg s _ v r).trans (if_neg fun hmem => ?_)
  obtain ⟨ha, hb⟩ := (mem_regRun a b r).1 hmem
  exact h.elim (BitVec.not_lt.2 ha) (BitVec.not_lt.2 hb)

/-- A run that is not empty leaves its last register in the word it is stored to. -/
theorem storeRun_regRun_readWord (s : State) (i : Nat) (h : a ≤ b) :
    (s.storeRun i (regRun a b)).readWord i = s.reg b := by
  obtain ⟨rs, hrs⟩ := regRun_eq_append a b h
  rw [hrs, storeRun_readWord]

end Block

/-! ### The merge under a mask (rules R226 and R227) -/

theorem maskMerge_getLsbD (old m v : Word) {i : Nat} (hi : i < 64) :
    (maskMerge old m v).getLsbD i = if m.getLsbD i then v.getLsbD i else old.getLsbD i := by
  rw [maskMerge, BitVec.getLsbD_or, BitVec.getLsbD_and, BitVec.getLsbD_and, BitVec.getLsbD_not, decide_eq_true hi]
  cases m.getLsbD i <;> simp

/-! ### The obligations -/

/-- Settles O46: past both checks the exact quotient is a word, and the remainder is written last. -/
theorem divQuotientAndRemainder : Obligations.DivQuotientAndRemainder := by
  refine fun s a b c => ⟨⟨fun _ => rfl, rfl⟩, fun hzero => ?_, fun hn hd => ?_, fun hzero hover => ?_⟩
  · exact (exec_div a b c s).trans (runRule_of_error (if_pos hzero))
  · have hzero : s.reg b ≠ 0#64 := hd ▸ by decide
    have hover := (divOverflows_iff _ _).2 ⟨hn, hd⟩
    exact (exec_div a b c s).trans (runRule_of_error ((if_neg hzero).trans (if_pos hover)))
  · obtain ⟨t, hnext, hquot, hrem, hframe⟩ := exec_div_completes c hzero hover
    exact ⟨t, hnext, fun hac => hquot hac ▸ quotSigned_toInt hover, hrem ▸ remSigned_toInt _ _, hframe⟩

/-- Settles O47: past the one check both results are words, and the remainder is written last. -/
theorem divuQuotientAndRemainder : Obligations.DivuQuotientAndRemainder := by
  refine fun s a b c => ⟨⟨fun _ => rfl, rfl⟩, fun hzero => ?_, fun hzero => ?_⟩
  · exact (exec_divu a b c s).trans (runRule_of_error (if_pos hzero))
  · obtain ⟨t, hnext, hquot, hrem, hframe⟩ := exec_divu_completes c hzero
    exact ⟨t, hnext, fun hac => hquot hac ▸ quotUnsigned_toNat _ _, hrem ▸ remUnsigned_toNat _ _, hframe⟩

/-- Settles O48: what O46 and O47 say is written is the quotient and the remainder of a division of integers. -/
theorem divisionLaws : Obligations.DivisionLaws := by
  refine fun s a b c hac hzero => ⟨fun hover => ?_, ?_⟩
  · obtain ⟨-, -, -, hdefined⟩ := divQuotientAndRemainder s a b c
    obtain ⟨t, hnext, hquot, hrem, -⟩ := hdefined hzero hover
    have hd : (s.reg b).toInt ≠ 0 := fun h => hzero (BitVec.eq_of_toInt_eq h)
    rw [sub_tdiv_mul] at hrem
    refine ⟨t, hnext, ?_⟩
    rw [hquot hac, hrem]
    exact ⟨(Int.tdiv_mul_add_tmod _ _).symm, natAbs_tmod_lt hd, tmod_eq_zero_or_sameSign _ _⟩
  · obtain ⟨-, -, hdefined⟩ := divuQuotientAndRemainder s a b c
    obtain ⟨t, hnext, hquot, hrem, -⟩ := hdefined hzero
    have hd : 0 < (s.reg b).toNat := Nat.pos_of_ne_zero fun h => hzero (BitVec.eq_of_toNat_eq h)
    refine ⟨t, hnext, ?_⟩
    rw [hquot hac, hrem]
    exact ⟨(Nat.div_add_mod' _ _).symm, Nat.mod_lt _ hd⟩

/-- Settles O49: the link is written before the jump, whose target is the old `x[b]`. -/
theorem balLinksInARegister : Obligations.BalLinksInARegister := fun s _ b c =>
  ⟨⟨fun _ => rfl, rfl⟩,
    fun h => ⟨_, exec_bal_of_taken b c h, setReg_reg_self _ c _, rfl, fun r hr => setReg_reg_of_ne _ c r _ hr,
      ⟨rfl, rfl, rfl, rfl⟩, ⟨rfl, rfl, rfl⟩, fun _ => rfl⟩,
    fun h => ⟨_, exec_bal_of_not_taken b c h, setPc_frame s _⟩⟩

/-- Settles O50: the one load comes before the writes, so the address register may be in the run. -/
theorem lsmLoadsOneWordIntoTheRun : Obligations.LsmLoadsOneWordIntoTheRun := by
  refine fun s a b c => ⟨⟨fun _ => rfl, rfl⟩, exec_lsm_of_lt c s, fun hab hout => ?_, fun hab hin => ?_⟩
  · have hload := loadWord_of_outside (s := s.setPc (s.pc + 4#64)) hout
    exact (exec_lsm_of_le c s hab).trans (runRule_of_error (congrArg (· >>= _) hload))
  · have hload := loadWord_of_inside (s := s.setPc (s.pc + 4#64)) hin
    exact ⟨_, (exec_lsm_of_le c s hab).trans (runRule_of_ok (bind_eq_ok_iff.2 ⟨_, hload, rfl⟩)),
      fun _ => setRegs_regRun_reg_inside _, fun _ => setRegs_regRun_reg_outside _, setRegs_frame _ _ _⟩

/-- Settles O51: every store of the run goes to the one word, and the last register is stored last. -/
theorem stmLeavesTheLastRegister : Obligations.StmLeavesTheLastRegister := by
  refine fun s a b c => ⟨⟨fun _ => rfl, rfl⟩, exec_stm_of_lt c s, fun hab hout => ?_, fun hab hin => ?_⟩
  · have hcheck := check_of_not_fits (s.setPc (s.pc + 4#64)) .write (Bool.eq_false_iff.2 (not_fits_word hout))
    exact (exec_stm_of_le c s hab).trans (runRule_of_error (congrArg (· >>= _) hcheck))
  · have hcheck := check_of_fits (s.setPc (s.pc + 4#64)) .write ((fits_word _ _).2 hin)
    exact ⟨_, (exec_stm_of_le c s hab).trans (runRule_of_ok (bind_eq_ok_iff.2 ⟨_, hcheck, rfl⟩)),
      storeRun_regRun_readWord (s.setPc _) _ hab, storeRun_read_outside (s.setPc _) _ _,
      setMem_frame (s.setPc (s.pc + 4#64)) _⟩

/-- Settles O52: the one register written holds the merge, which is taken bit by bit. -/
theorem mskrMergesUnderTheMask : Obligations.MskrMergesUnderTheMask := by
  refine fun s a b c => ⟨⟨fun _ => rfl, rfl⟩, ?_⟩
  obtain ⟨t, hnext, hwrites⟩ := runRule_setReg s .r3 a fun u => maskMerge (u.reg a) (u.reg b) (u.reg c)
  exact ⟨t, _, (exec_mskr a b c s).trans hnext, hwrites, fun _ => maskMerge_getLsbD _ _ _⟩

/-- Settles O53: the load and the store are of one word, so a store whose load passed its check passes its own. -/
theorem msksStoresUnderTheMask : Obligations.MsksStoresUnderTheMask := by
  refine fun s a b c => ⟨⟨fun _ => rfl, rfl⟩, fun hout => ?_, fun hin => ?_⟩
  · have hload := loadWord_of_outside (s := s.setPc (s.pc + 4#64)) hout
    exact (exec_msks a b c s).trans (runRule_of_error (congrArg (· >>= _) hload))
  · have hload := loadWord_of_inside (s := s.setPc (s.pc + 4#64)) hin
    have hstore := storeWord_of_inside (s := s.setPc (s.pc + 4#64))
      (maskMerge (s.mem.readWord (s.reg c).toNat) (s.reg b) (s.reg a)) hin
    refine ⟨_, (exec_msks a b c s).trans (runRule_of_ok (bind_eq_ok_iff.2 ⟨_, hload, hstore⟩)), fun i hi => ?_,
      fun p hp => Memory.read_writeWord_outside _ _ p _ hp, setMem_frame (s.setPc (s.pc + 4#64)) _⟩
    rw [setMem_mem, setPc_mem, Memory.readWord_writeWord, maskMerge_getLsbD _ _ _ hi]

end Sys2Proof.Machine
end

section
/-!
SUPPORT. The immediate class (rules R96 and R250): the rule LI runs in its frame and the bytes of its literal.
-/

namespace Sys2Proof.Machine

theorem exec_li (a : RegNum) (imm : Word) (s : State) :
    exec (.li a imm) s = runRule .imm s fun t => .ok (t.setReg a imm) := rfl

/-- The bytes of a word, by their big-endian positions (rule R96). -/
theorem beBytes_eq_map_extractLsb' (v : Word) :
    beBytes v = (List.range 8).map fun i => v.extractLsb' (56 - 8 * i) 8 := rfl

/-- Settles O54: the one register written holds the literal, and the fetch fault is the operand check of O9 at the width
of the immediate class. -/
theorem liLoadsTheLiteral : Obligations.LiLoadsTheLiteral := by
  refine fun s a imm => ⟨⟨fun m => ?_, rfl⟩, ?_, fun hrun hin hne hlookup hshort => ?_⟩
  · rw [encode, beBytes_eq_map_extractLsb']
  · exact exec_li a imm s ▸ runRule_setReg s .imm a fun _ => imm
  · obtain ⟨-, hinside⟩ := stepChecksInOrder s hrun
    obtain ⟨-, hnotHalt⟩ := hinside hin
    obtain ⟨-, hselected⟩ := hnotHalt hne
    obtain ⟨hoperands, -⟩ := hselected .li hlookup
    exact hoperands hshort

end Sys2Proof.Machine
end

section
/-!
SUPPORT. Faults and interrupts (rules R301 to R314): what a step that stops the machine leaves, the two readings of the
number INT takes, the ends of the system call and of an interrupt's entry, and the return from a word that was pushed.
-/

namespace Sys2Proof.Machine

/-! ### The steps that stop the machine (rules R26 and R311) -/

/-- After a step the machine runs on, or it has halted, or it has taken a fault; the last two write only the status. -/
theorem step_running_or_stops {s t : State} (h : step s = .next t) :
    t.status = .running ∨ t = s.setStatus .halted ∨ ∃ c, t = s.takeFault c := by
  obtain ⟨i, hi⟩ | hfault := step_next h
  · obtain heffect | ⟨-, hhalt⟩ | hfault := exec_effect hi
    · exact .inl (heffect.status.trans (running_of_step_next h))
    · exact .inr (.inl hhalt)
    · exact .inr (.inr hfault)
  · exact .inr (.inr hfault)

/-! ### The number of an interrupt, and its entry of the vector table (rules R77, R150 and R301) -/

section Number

variable {s : State} {a : RegNum}

theorem lowByte_eq_one_iff (v : Word) : lowByte v = 1#8 ↔ v.toNat % 256 = 1 := by
  rw [← BitVec.toNat_inj, lowByte_toNat, BitVec.toNat_ofNat]

/-- The entry whose number is the low byte of a word, with that number as an integer. -/
theorem vectorAddr_lowByte (s : State) (v : Word) :
    s.vectorAddr (lowByte v) = s.ip + BitVec.ofNat 64 (v.toNat % 256) * 8#64 := by
  rw [State.vectorAddr, ← BitVec.ofNat_toNat, lowByte_toNat]

theorem exec_int (a : RegNum) (s : State) :
    exec (.int a) s = runRule .r1 s fun t => t.raiseInterrupt (lowByte (t.reg a)) := rfl

theorem exec_int_of_one (h : (s.reg a).toNat % 256 = 1) :
    exec (.int a) s = runRule .r1 s fun t => t.systemCall :=
  (exec_int a s).trans (congrArg (settle s) (if_pos ((lowByte_eq_one_iff _).2 h)))

theorem exec_int_of_ne_one (h : (s.reg a).toNat % 256 ≠ 1) :
    exec (.int a) s = runRule .r1 s fun t => t.enterInterrupt (lowByte (s.reg a)) :=
  (exec_int a s).trans (congrArg (settle s) (if_neg (mt (lowByte_eq_one_iff _).1 h)))

end Number

/-! ### The two answers of the system call (rules R302 to R304) -/

section SystemCall

variable {s : State}

theorem systemCall_of_callsEmit (h : s.callsEmit) : s.systemCall = .ok (s.emit (lowByte (s.reg 1#8))) := if_pos h

theorem systemCall_of_not_callsEmit (h : ¬ s.callsEmit) : s.systemCall = .error (.unknownSystemCall (s.reg 0#8)) :=
  if_neg h

/-- A byte emitted keeps everything but the output. -/
theorem emit_frame (s : State) (b : Byte) : (s.emit b).pc = s.pc ∧ sameRegs s (s.emit b) ∧ sameSpecials s (s.emit b) ∧
    (s.emit b).cfg = s.cfg ∧ (s.emit b).status = s.status ∧ sameMemory s (s.emit b) :=
  ⟨rfl, emit_reg s b, ⟨rfl, rfl, rfl, rfl⟩, rfl, rfl, fun _ => rfl⟩

end SystemCall

/-! ### The three answers of an interrupt's entry (rule R305) -/

section Enter

variable {s : State} {n : Byte}

/-- An entry that completes has pushed the program counter and jumps to the word in the vector, read after the push. -/
theorem enterInterrupt_of_fits (hpush : s.canPush) (hvector : s.vectorFits n) :
    ∃ t, s.enterInterrupt n = .ok t ∧ pushed s t s.pc ∧ t.pc = t.mem.readWord (s.vectorAddr n).toNat := by
  obtain ⟨u, hu, hpushed, -⟩ := push_of_canPush s.pc hpush
  cases ((push_eq s s.pc).trans (if_pos hpush)).symm.trans hu
  exact ⟨_, (enterInterrupt_eq s n).trans ((if_pos hpush).trans (if_pos hvector)), hpushed, rfl⟩

/-- The push is the first check of an entry. -/
theorem enterInterrupt_of_not_canPush (hpush : ¬ s.canPush) :
    s.enterInterrupt n = .error (.addressFault (s.sp - 8#64) .word .write) :=
  (enterInterrupt_eq s n).trans (if_neg hpush)

/-- The read of the vector is the second check of an entry. -/
theorem enterInterrupt_of_not_vectorFits (hpush : s.canPush) (hvector : ¬ s.vectorFits n) :
    s.enterInterrupt n = .error (.addressFault (s.vectorAddr n) .word .read) :=
  (enterInterrupt_eq s n).trans ((if_pos hpush).trans (if_neg hvector))

end Enter

/-! ### The return from a pushed word (rules R75 and R308) -/

section Return

variable {s t : State} {v : Word}

/-- A word that the bytes written do not overlap reads as before (rule R71). -/
theorem readWord_of_sameMemoryOutside {a n p : Nat} (h : sameMemoryOutside s t a n) (hp : p + 8 ≤ a ∨ a + n ≤ p) :
    t.mem.readWord p = s.mem.readWord p :=
  Memory.readWord_congr fun i hi => h (p + i) (by omega)

/-- A RET begun after a push goes to the word pushed and gives `sp` and the general registers back. -/
theorem exec_ret_of_pushed (hfits : s.canPush) (h : pushed s t v) :
    ∃ u, exec .ret t = .next u ∧ u.pc = v ∧ u.sp = s.sp ∧ sameRegs s u := by
  obtain ⟨hsp, hword, -, hregs, -, -, -, hcfg, -⟩ := h
  have hpop : t.canPop := by
    rw [State.canPop, hsp, fits_congr hcfg]
    exact hfits
  obtain ⟨-, hret⟩ := retPopsThePc
  obtain ⟨u, hu, hpc, husp, huregs, -⟩ := (hret t).1 hpop
  refine ⟨u, hu, ?_, ?_, fun r => (huregs r).trans (hregs r)⟩
  · rw [hpc, hsp, hword]
  · rw [husp, hsp, BitVec.sub_add_cancel]

end Return

/-! ### The obligations -/

/-- Settles O11: a step after which the machine does not run has written only the status, and a fault's record names the
program counter. -/
theorem stoppingStepsChangeOnlyTheStatus : Obligations.StoppingStepsChangeOnlyTheStatus := by
  intro s t h
  obtain hrun | rfl | ⟨c, rfl⟩ := step_running_or_stops h
  · rw [hrun]
    exact ⟨nofun, nofun⟩
  · exact ⟨nofun, fun _ => rfl⟩
  · refine ⟨fun r hr => ?_, nofun⟩
    cases hr
    exact ⟨rfl, rfl⟩

/-- Settles O32: number 1 runs the system call after the advance of the program counter, which its selector and its byte
do not depend on. -/
theorem intNumberOneIsTheSystemCall : Obligations.IntNumberOneIsTheSystemCall := by
  refine fun s a => ⟨⟨fun _ => rfl, rfl⟩, fun hone => ⟨fun hemit => ?_, fun hother => ?_⟩⟩
  · have hcall := systemCall_of_callsEmit (s := s.setPc (s.pc + 2#64)) hemit
    exact ⟨_, (exec_int_of_one hone).trans (runRule_of_ok hcall), emit_out _ _,
      emit_frame (s.setPc (s.pc + 2#64)) (lowByte (s.reg 1#8))⟩
  · have hcall := systemCall_of_not_callsEmit (s := s.setPc (s.pc + 2#64)) hother
    exact (exec_int_of_one hone).trans (runRule_of_error hcall)

/-- Settles O33: the entry runs after the advance of the program counter, which is the word it pushes and which moves
neither `sp` nor the vector table. -/
theorem intEntersTheVector : Obligations.IntEntersTheVector := by
  intro s a hne
  rw [← vectorAddr_lowByte]
  refine ⟨fun hpush hvector => ?_, fun hpush => ?_, fun hpush hvector => ?_⟩
  · obtain ⟨t, henter, hpushed, hpc⟩ := enterInterrupt_of_fits (s := s.setPc (s.pc + 2#64)) hpush hvector
    exact ⟨t, (exec_int_of_ne_one hne).trans (runRule_of_ok henter), hpushed, hpc⟩
  · exact (exec_int_of_ne_one hne).trans
      (runRule_of_error (enterInterrupt_of_not_canPush (s := s.setPc (s.pc + 2#64)) hpush))
  · exact (exec_int_of_ne_one hne).trans
      (runRule_of_error (enterInterrupt_of_not_vectorFits (s := s.setPc (s.pc + 2#64)) hpush hvector))

/-- Settles O34: the entry has pushed the address after the INT, which leaves the vector as it was, and the RET begins
with that word on top of the stack. -/
theorem retReturnsFromAnInterrupt : Obligations.RetReturnsFromAnInterrupt := by
  intro s t a hne hpush hvector hapart h
  obtain ⟨henter, -⟩ := intEntersTheVector s a hne
  obtain ⟨_, hnext, hpushed, hpc⟩ := henter hpush hvector
  cases hnext.symm.trans h
  rw [← vectorAddr_lowByte] at hpc
  have ⟨_, _, houtside, _⟩ := hpushed
  exact ⟨hpc.trans (readWord_of_sameMemoryOutside houtside hapart), exec_ret_of_pushed hpush hpushed⟩

end Sys2Proof.Machine
end

section
/-!
SUPPORT. The end of a run under fuel (rule R359): what `runToEnd` answers in each run status, how it goes on after some
steps, and that its answer is that of a state its steps lead to.
-/

namespace Sys2Proof.Machine

section RunEnds

variable {j k : Nat} {s t : State} {r : FaultRecord} {e : RunEnd}

/-! ### What a run under fuel answers -/

theorem runToEnd_halted (k : Nat) (h : s.status = .halted) : runToEnd k s = .halted s := by
  unfold runToEnd
  rw [h]

theorem runToEnd_faulted (k : Nat) (h : s.status = .faulted r) : runToEnd k s = .faulted r s := by
  unfold runToEnd
  rw [h]

theorem runToEnd_zero_running (h : s.status = .running) : runToEnd 0 s = .noEnd s := by
  unfold runToEnd
  rw [h]

theorem runToEnd_succ_next (k : Nat) (h : step s = .next t) : runToEnd (k + 1) s = runToEnd k t := by
  rw [runToEnd, running_of_step_next h, h]

/-- A stopped machine has ended, whatever the fuel. -/
theorem runToEnd_stopped (k : Nat) (h : s.status ≠ .running) : runToEnd k s = runToEnd 0 s := by
  cases hs : s.status with
  | running => exact absurd hs h
  | halted => rw [runToEnd_halted k hs, runToEnd_halted 0 hs]
  | faulted r => rw [runToEnd_faulted k hs, runToEnd_faulted 0 hs]

/-- Without fuel, Halted is answered by a halted machine alone, and in its own state. -/
theorem runToEnd_zero_eq_halted_iff : runToEnd 0 s = .halted t ↔ s = t ∧ t.status = .halted := by
  refine ⟨fun h => ?_, fun ⟨hst, ht⟩ => hst.symm ▸ runToEnd_halted 0 ht⟩
  cases hs : s.status with
  | running => cases (runToEnd_zero_running hs).symm.trans h
  | halted => cases (runToEnd_halted 0 hs).symm.trans h; exact ⟨rfl, hs⟩
  | faulted r => cases (runToEnd_faulted 0 hs).symm.trans h

/-- Without fuel, Faulted is answered by a faulted machine alone, with its record and in its own state. -/
theorem runToEnd_zero_eq_faulted_iff : runToEnd 0 s = .faulted r t ↔ s = t ∧ t.status = .faulted r := by
  refine ⟨fun h => ?_, fun ⟨hst, ht⟩ => hst.symm ▸ runToEnd_faulted 0 ht⟩
  cases hs : s.status with
  | running => cases (runToEnd_zero_running hs).symm.trans h
  | halted => cases (runToEnd_halted 0 hs).symm.trans h
  | faulted q => cases (runToEnd_faulted 0 hs).symm.trans h; exact ⟨rfl, hs⟩

/-! ### A run under fuel and the steps it takes -/

/-- A run that goes on has taken a step. -/
theorem run_succ_eq_next (h : Sys2Proof.core.run (j + 1) s = .next t) :
    ∃ u, step s = .next u ∧ Sys2Proof.core.run j u = .next t := by
  cases hs : step s with
  | next u => exact ⟨u, rfl, (run_succ_next j hs).symm.trans h⟩
  | fault q => cases (run_succ_fault j hs).symm.trans h
  | refused q => cases (run_succ_refused j hs).symm.trans h

/-- After `j` steps the run goes on with the fuel that is left. -/
theorem runToEnd_add (n : Nat) (h : Sys2Proof.core.run j s = .next t) : runToEnd (j + n) s = runToEnd n t := by
  induction j generalizing s with
  | zero =>
    cases h
    rw [Nat.zero_add]
  | succ j ih =>
    obtain ⟨u, hstep, hrun⟩ := run_succ_eq_next h
    calc runToEnd (j + 1 + n) s = runToEnd (j + n + 1) s := by rw [Nat.add_right_comm]
      _ = runToEnd (j + n) u := runToEnd_succ_next _ hstep
      _ = runToEnd n t := ih hrun

/-- A run under fuel answers what some state within its fuel answers without fuel: a stopped one, or the last. -/
theorem exists_run_runToEnd_eq (k : Nat) (s : State) :
    ∃ j t, j ≤ k ∧ Sys2Proof.core.run j s = .next t ∧ runToEnd k s = runToEnd 0 t := by
  induction k generalizing s with
  | zero => exact ⟨0, s, le_rfl, rfl, rfl⟩
  | succ k ih =>
    by_cases hs : s.status = .running
    · obtain ⟨u, hstep⟩ := step_answers hs
      obtain ⟨j, t, hj, hrun, hend⟩ := ih u
      exact ⟨j + 1, t, Nat.succ_le_succ hj, (run_succ_next j hstep).trans hrun,
        (runToEnd_succ_next k hstep).trans hend⟩
    · exact ⟨0, s, Nat.zero_le _, rfl, runToEnd_stopped _ hs⟩

/-- An end that names a state stopped with status `p` is answered exactly when the steps within the fuel lead to that
state. -/
theorem runToEnd_eq_iff {p : Status} (hp : p ≠ .running) (he : ∀ u, runToEnd 0 u = e ↔ u = t ∧ t.status = p) :
    runToEnd k s = e ↔ ∃ j, j ≤ k ∧ Sys2Proof.core.run j s = .next t ∧ t.status = p := by
  constructor
  · intro h
    obtain ⟨j, u, hj, hrun, hend⟩ := exists_run_runToEnd_eq k s
    obtain ⟨rfl, hu⟩ := (he u).1 (hend.symm.trans h)
    exact ⟨j, hj, hrun, hu⟩
  · rintro ⟨j, hj, hrun, ht⟩
    obtain ⟨n, rfl⟩ := Nat.exists_eq_add_of_le hj
    calc runToEnd (j + n) s = runToEnd n t := runToEnd_add n hrun
      _ = runToEnd 0 t := runToEnd_stopped n (ht.trans_ne hp)
      _ = e := (he t).2 ⟨rfl, ht⟩

end RunEnds

/-! ### The obligation -/

/-- Settles O21: both ends name the state they were taken in, which the steps within the fuel lead to. -/
theorem runsEndExactlyInAStoppedState : Obligations.RunsEndExactlyInAStoppedState := fun _ _ _ =>
  ⟨runToEnd_eq_iff nofun fun _ => runToEnd_zero_eq_halted_iff,
    fun _ => runToEnd_eq_iff nofun fun _ => runToEnd_zero_eq_faulted_iff⟩

end Sys2Proof.Machine
end
